-- ==== Sys2Proof/Word.lean ====
section
/-!
DEFINITION. The words of the machine: bytes, instruction words and the fields cut out of them.

Rule R6: every value is unsigned; rule R5: bit 0 is the least significant bit.
-/

namespace Sys2Proof

/-- A memory byte or the content of a `V` register (R22, R60). -/
abbrev Byte := BitVec 8

/-- A 16-bit word: an instruction, `I`, `PC`, a return address, `FAULT.info` (R11, R24, R28). -/
abbrev Word := BitVec 16

/-- The 12-bit address field `nnn` (R91). -/
abbrev Addr := BitVec 12

/-- The 4-bit field `n` (R91). -/
abbrev Nibble := BitVec 4

/-- The number of a general register, `V0` to `VF` (R22); the fields `x` and `y` (R91). -/
abbrev Reg := Fin 16

/-- The register the machine uses as its only flag (R23). -/
abbrev VF : Reg := 15

end Sys2Proof
end

