-- ==== Sys2Proof/Config.lean ====
section
/-!
DEFINITION. What an implementation fixes (the build-time parameters of rule R4) and the free values.

A free value is an opaque constant: nothing can be proved about it, so a theorem holds whatever it is.
-/

namespace Sys2Proof

/-- Which register `ShR` and `ShL` shift: the OPEN parameter `SHIFT_SRC` of rule R4 (log entry 6). -/
inductive ShiftSrc where
  | x
  | y
deriving DecidableEq, Repr, Inhabited

/-- The build-time parameters a program cannot see and no step changes (R4, R29).
`FONT`, `PROGRAM` and `MEM_TAIL` are contents of memory and stand there (log entries 8, 9). -/
structure Params where
  /-- `SHIFT_SRC` (R4, R169, R171). -/
  shiftSrc : ShiftSrc
  /-- `SETSOUND_GUARD` (R4, R235). -/
  setSoundGuard : Bool
deriving DecidableEq, Repr, Inhabited

/-- What the host supplies with one `step`: the key vector and a random byte (R32, R295). -/
structure HostInput where
  /-- Bit `j` is 1 when key `j` is pressed (R32, R270). -/
  keys : BitVec 16
  /-- The byte `Random` consumes (R32, R172). -/
  rnd : Byte
deriving DecidableEq, Repr, Inhabited

/-- FREE VALUE. The key vector of the step numbered `n`, where the host's schedule names none: the
host may press any keys between steps (R122, R270; log entry 3). Safe. -/
opaque Config.keysAt : Nat → BitVec 16

/-- FREE VALUE. The random byte of the step numbered `n`, where the host's schedule names none: "a
model treats it as a draw" (R32, R172; log entry 4). Safe. -/
opaque Config.rndAt : Nat → Byte

/-- FREE VALUE. What a faulting step leaves behind, given the whole state it faulted in: "every other
piece of state ... unspecified (treat as any value)" (R258; log entry 2). Safe. -/
opaque Config.unspecified {σ : Type} [Inhabited σ] : σ → σ

end Sys2Proof
end

