-- ==== Sys2Proof/Machine/Defaults.lean ====
section
/-!
DEFINITION. The defaults of the OPEN parameters of rule R4, which `State.reset` takes.
-/

namespace Sys2Proof.Machine

/-- The default parameters (R4): `SHIFT_SRC = X` (log entry 6), `SETSOUND_GUARD = true` (entry 7). -/
def defaultParams : Params := { shiftSrc := .x, setSoundGuard := true }

/-- Glyphs `0` to `7` of the default font (R69; PRESUMED, log entry 8). -/
def fontLow : List Byte :=
  [ 0xF0, 0x90, 0x90, 0x90, 0xF0,
    0x20, 0x60, 0x20, 0x20, 0x70,
    0xF0, 0x10, 0xF0, 0x80, 0xF0,
    0xF0, 0x10, 0xF0, 0x10, 0xF0,
    0x90, 0x90, 0xF0, 0x10, 0x10,
    0xF0, 0x80, 0xF0, 0x10, 0xF0,
    0xF0, 0x80, 0xF0, 0x90, 0xF0,
    0xF0, 0x10, 0x20, 0x40, 0x40 ]

/-- Glyphs `8` to `F` of the default font (R69; PRESUMED, log entry 8). -/
def fontHigh : List Byte :=
  [ 0xF0, 0x90, 0xF0, 0x90, 0xF0,
    0xF0, 0x90, 0xF0, 0x10, 0xF0,
    0xF0, 0x90, 0xF0, 0x90, 0x90,
    0xE0, 0x90, 0xE0, 0x90, 0xE0,
    0xF0, 0x80, 0x80, 0x80, 0xF0,
    0xE0, 0x90, 0x90, 0x90, 0xE0,
    0xF0, 0x80, 0xF0, 0x80, 0xF0,
    0xF0, 0x80, 0xF0, 0x80, 0x80 ]

/-- The 80 bytes of the parameter `FONT` at its default (R4, R69). -/
def defaultFont : List Byte := fontLow ++ fontHigh

/-- What an unlisted address reads as: memory after reset with no program loaded and `MEM_TAIL` at
its default (R68, R291): the font at `0x000..0x04F`, zero above it (log entries 8, 9). -/
def unlistedByte (a : Nat) : Byte := (defaultFont[a]?).getD 0

end Sys2Proof.Machine
end

