-- ==== Sys2Proof/Machine/State.lean ====
section
/-!
DEFINITION. The state of the machine (R20 to R33) as plain data, and the state after reset (R40 to R44).
-/

namespace Sys2Proof.Machine

/-- Main memory (R60): the cells whose byte differs from `unlistedByte`, by rising address. -/
abbrev Memory := List Host.Cell

/-- The framebuffer: 32 rows of 64 pixels, row 0 at the top, column 0 at the left (R210). -/
abbrev Screen := Vector (Vector Bool 64) 32

/-- `RUNSTATE` (R30). -/
inductive RunState where
  | running
  | waitingForKey
deriving DecidableEq, Repr, Inhabited

/-- `FAULT.code`: the values that occur in the latch (R31, R250). Their numbers are
`FaultCode.number` (log entry 13). -/
inductive FaultCode where
  | none
  | outOfBounds
  | stackOverflow
  | stackUnderflow
  | unknownOpcode
deriving DecidableEq, Repr, Inhabited

/-- `FAULT`, the fault latch (R31). -/
structure FaultLatch where
  code : FaultCode
  info : Word
deriving DecidableEq, Repr, Inhabited

/-- The state. The first eleven fields are the complete architectural state of R20; the rest are the
per-step signals of R32 and R33 and the model's own fields (INVENTORY.md, "State"). -/
structure State where
  /-- `V[0..15]` (R22). -/
  v : Vector Byte 16
  /-- `I` (R28). -/
  i : Word
  /-- `PC` (R24). -/
  pc : Word
  /-- `DT` (R25). -/
  dt : Byte
  /-- `ST` (R26). -/
  st : Byte
  /-- `SP`: the number of return addresses held, 0 to 16 (R27; log entry 12). -/
  sp : Fin 17
  /-- `STACK[0..15]` (R27). -/
  stack : Vector Word 16
  /-- `MEM` (R60). -/
  mem : Memory
  /-- `FB` (R210). -/
  fb : Screen
  /-- `RUNSTATE` (R30). -/
  runState : RunState
  /-- `FAULT` (R31). -/
  fault : FaultLatch
  /-- `frame_strobe` of the last step (R33, R128, R216; log entry 22). -/
  strobe : Bool
  /-- `K`, the key vector sampled for the current step (R7, R122; log entry 3). -/
  k : BitVec 16
  /-- `RND`, the random byte of the current step (R7, R122; log entry 4). -/
  rnd : Byte
  /-- The model's own: what the host will present to the next steps, in order; where the list has
  ended, inputs are free values (R295; log entries 3, 4, 5). -/
  inputs : List HostInput
  /-- The model's own: the counter the free inputs are applied to (log entry 5). -/
  tick : Nat
  /-- The build-time parameters (R4; log entries 6, 7). -/
  params : Params
deriving DecidableEq, Repr, Inhabited

/-- Why the machine stops with a fault outcome: never. Every fault of the spec is taken as a next
state with the latch written, and a halted machine still answers every step (R121, R256; log entry
1), so this type has no constructor: nothing raises it. -/
inductive Fault where
deriving DecidableEq, Repr

/-- Why an instruction has no meaning. -/
inductive Refusal where
  /-- Raised by a refused arm of `exec` alone: the instruction has no meaning yet. Safe. No arm
  raises it now. -/
  | notModelled (mnemonic : String)
deriving DecidableEq, Repr

/-- The machine right after reset (R40 to R44), with no program in memory (log entry 25) and the
parameters at their defaults (log entries 5 to 13 name each value the source does not give). -/
def State.reset : State where
  v := Vector.replicate 16 0
  i := 0
  pc := 0x200
  dt := 0
  st := 0
  sp := 0
  stack := Vector.replicate 16 0
  mem := []
  fb := Vector.replicate 32 (Vector.replicate 64 false)
  runState := .running
  fault := { code := .none, info := 0 }
  strobe := false
  k := 0
  rnd := 0
  inputs := []
  tick := 0
  params := defaultParams

end Sys2Proof.Machine
end

