-- ==== Sys2Proof/Machine/Flags.lean ====
section
/-!
DEFINITION. Every flag value the spec gives `VF` (R23). A flag is always exactly 0 or 1.
-/

namespace Sys2Proof.Machine

/-- A flag as the byte written to `VF` (R23). -/
def flagByte (c : Bool) : Byte := if c then 1 else 0

/-- Carry: the mathematical sum exceeds 255 (R167). -/
def carryFlag (a b : Byte) : Byte := flagByte (decide (a.toNat + b.toNat > 255))

/-- Not-borrow: minuend `>=` subtrahend (R168, R170, R173). -/
def notBorrowFlag (minuend subtrahend : Byte) : Byte :=
  flagByte (decide (minuend.toNat ≥ subtrahend.toNat))

/-- Bit 0 of the shifted register before the shift (R169). -/
def shiftOutLowFlag (s : Byte) : Byte := s &&& 1

/-- Bit 7 of the shifted register before the shift (R171). -/
def shiftOutHighFlag (s : Byte) : Byte := s >>> 7

/-- The index sum is beyond the last memory address (R191). -/
def indexOverflowFlag (sum : Nat) : Byte := flagByte (decide (sum > 0xFFF))

/-- A drawn pixel went from 1 to 0 (R212, R215). -/
def collisionFlag (collided : Bool) : Byte := flagByte collided

end Sys2Proof.Machine
end

