-- ==== Sys2Proof/Syntax.lean ====
section
/-!
DEFINITION. The instructions: one constructor per row of the opcode map (R95), in the table's order.

Operands are the fields of R91 at their own width, so that every operand a constructor can hold is
one the encoding admits (R93: all 16 register numbers and every immediate are legal).
-/

namespace Sys2Proof

/-- The 34 operations of rule R95. -/
inductive Instr where
  /-- `00E0` (R211). -/
  | clearScreen
  /-- `00EE` (R140). -/
  | ret
  /-- `1nnn` (R141). -/
  | jump (nnn : Addr)
  /-- `2nnn` (R142). -/
  | call (nnn : Addr)
  /-- `3xkk` (R143). -/
  | skipEqImm (x : Reg) (kk : Byte)
  /-- `4xkk` (R144). -/
  | skipNeqImm (x : Reg) (kk : Byte)
  /-- `5xy0` (R145). -/
  | skipEqReg (x y : Reg)
  /-- `6xkk` (R161). -/
  | setImm (x : Reg) (kk : Byte)
  /-- `7xkk` (R162). -/
  | addImm (x : Reg) (kk : Byte)
  /-- `8xy0` (R163). -/
  | copy (x y : Reg)
  /-- `8xy1` (R164). -/
  | or (x y : Reg)
  /-- `8xy2` (R165). -/
  | and (x y : Reg)
  /-- `8xy3` (R166). -/
  | xor (x y : Reg)
  /-- `8xy4` (R167). -/
  | addReg (x y : Reg)
  /-- `8xy5` (R168). -/
  | subXY (x y : Reg)
  /-- `8xy6` (R169). -/
  | shR (x y : Reg)
  /-- `8xy7` (R170). -/
  | subYX (x y : Reg)
  /-- `8xyE` (R171). -/
  | shL (x y : Reg)
  /-- `9xyN` (R146); the low digit is kept here and ignored by the machine (R97; log entry 16). -/
  | skipNeqReg (x y : Reg) (n : Nibble)
  /-- `Annn` (R190). -/
  | setIndex (nnn : Addr)
  /-- `Bnnn` (R147). -/
  | jumpV0 (nnn : Addr)
  /-- `Cxkk` (R172). -/
  | random (x : Reg) (kk : Byte)
  /-- `Dxyn` (R212). -/
  | drawSprite (x y : Reg) (n : Nibble)
  /-- `Ex9E` (R230). -/
  | skipKeyDown (x : Reg)
  /-- `ExA1` (R231). -/
  | skipKeyUp (x : Reg)
  /-- `Fx07` (R233). -/
  | getDelay (x : Reg)
  /-- `Fx0A` (R232). -/
  | waitKey (x : Reg)
  /-- `Fx15` (R234). -/
  | setDelay (x : Reg)
  /-- `Fx18` (R235). -/
  | setSound (x : Reg)
  /-- `Fx1E` (R191). -/
  | addIndex (x : Reg)
  /-- `Fx29` (R192). -/
  | fontAddr (x : Reg)
  /-- `Fx33` (R193). -/
  | storeBCD (x : Reg)
  /-- `Fx55` (R194). -/
  | storeRegs (x : Reg)
  /-- `Fx65` (R195). -/
  | loadRegs (x : Reg)
deriving DecidableEq, Repr, Inhabited

end Sys2Proof
end

