-- ==== Sys2Proof/WellFormed.lean ====
section
/-!
DEFINITION. The well-formedness checks the types of `Syntax.lean` do not already make.

Register numbers and immediates are in range by their types (R93). Two checks remain: an instruction
in its canonical encoding (R97), and a program image that fits in memory (R292).
-/

namespace Sys2Proof

/-- The instruction is one an assembler emits (R97, R100): the ignored low digit of `SkipNeqReg` is 0.
The machine also executes the non-canonical words, so nothing in the machine asks for this. -/
def Instr.canonical (i : Instr) : Bool :=
  match i with
  | .skipNeqReg _ _ n => n == 0
  | .clearScreen | .ret | .jump _ | .call _ | .skipEqImm _ _ | .skipNeqImm _ _ | .skipEqReg _ _
  | .setImm _ _ | .addImm _ _ | .copy _ _ | .or _ _ | .and _ _ | .xor _ _ | .addReg _ _
  | .subXY _ _ | .shR _ _ | .subYX _ _ | .shL _ _ | .setIndex _ | .jumpV0 _ | .random _ _
  | .drawSprite _ _ _ | .skipKeyDown _ | .skipKeyUp _ | .getDelay _ | .waitKey _ | .setDelay _
  | .setSound _ | .addIndex _ | .fontAddr _ | .storeBCD _ | .storeRegs _ | .loadRegs _ => true

/-- The image fits between `0x200` and the end of memory: `L <= 3584` (R292). -/
def programFits (program : List Byte) : Bool := program.length ≤ 3584

end Sys2Proof
end

