-- ==== Sys2Proof/Decode.lean ====
section
/-!
DEFINITION. Decoding by the opcode map of rule R95, and the encoder of rule R100.
-/

namespace Sys2Proof

/-- The field `x = w[11:8]` (R91). -/
def fieldX (w : Word) : Reg := (w.extractLsb' 8 4).toFin

/-- The field `y = w[7:4]` (R91). -/
def fieldY (w : Word) : Reg := (w.extractLsb' 4 4).toFin

/-- The field `n = w[3:0]` (R91). -/
def fieldN (w : Word) : Nibble := w.extractLsb' 0 4

/-- The field `kk = w[7:0]` (R91). -/
def fieldKK (w : Word) : Byte := w.extractLsb' 0 8

/-- The field `nnn = w[11:0]` (R91). -/
def fieldNNN (w : Word) : Addr := w.extractLsb' 0 12

/-- One row of the opcode map (R94, R95). -/
structure OpRow where
  /-- The digits that are compared. -/
  mask : Word
  /-- What they must be. -/
  value : Word
  /-- The operation, with its operand fields taken from the word. -/
  build : Word → Instr

/-- A word selects a row iff `(w & mask) = match` (R94). -/
def OpRow.selects (r : OpRow) (w : Word) : Bool := w &&& r.mask == r.value

/-- The rows of R95 with the leading digits 0 to 7. -/
def opRowsLow : List OpRow :=
  [ ⟨0xFFFF, 0x00E0, fun _ => .clearScreen⟩,
    ⟨0xFFFF, 0x00EE, fun _ => .ret⟩,
    ⟨0xF000, 0x1000, fun w => .jump (fieldNNN w)⟩,
    ⟨0xF000, 0x2000, fun w => .call (fieldNNN w)⟩,
    ⟨0xF000, 0x3000, fun w => .skipEqImm (fieldX w) (fieldKK w)⟩,
    ⟨0xF000, 0x4000, fun w => .skipNeqImm (fieldX w) (fieldKK w)⟩,
    ⟨0xF00F, 0x5000, fun w => .skipEqReg (fieldX w) (fieldY w)⟩,
    ⟨0xF000, 0x6000, fun w => .setImm (fieldX w) (fieldKK w)⟩,
    ⟨0xF000, 0x7000, fun w => .addImm (fieldX w) (fieldKK w)⟩ ]

/-- The nine `8xyN` rows of R95; which `N` is which operation is R96 (log entry 14). -/
def opRowsAlu : List OpRow :=
  [ ⟨0xF00F, 0x8000, fun w => .copy (fieldX w) (fieldY w)⟩,
    ⟨0xF00F, 0x8001, fun w => .or (fieldX w) (fieldY w)⟩,
    ⟨0xF00F, 0x8002, fun w => .and (fieldX w) (fieldY w)⟩,
    ⟨0xF00F, 0x8003, fun w => .xor (fieldX w) (fieldY w)⟩,
    ⟨0xF00F, 0x8004, fun w => .addReg (fieldX w) (fieldY w)⟩,
    ⟨0xF00F, 0x8005, fun w => .subXY (fieldX w) (fieldY w)⟩,
    ⟨0xF00F, 0x8006, fun w => .shR (fieldX w) (fieldY w)⟩,
    ⟨0xF00F, 0x8007, fun w => .subYX (fieldX w) (fieldY w)⟩,
    ⟨0xF00F, 0x800E, fun w => .shL (fieldX w) (fieldY w)⟩ ]

/-- The rows of R95 with the leading digits 9 to D; the mask of `9xy0` is R97's. -/
def opRowsMid : List OpRow :=
  [ ⟨0xF000, 0x9000, fun w => .skipNeqReg (fieldX w) (fieldY w) (fieldN w)⟩,
    ⟨0xF000, 0xA000, fun w => .setIndex (fieldNNN w)⟩,
    ⟨0xF000, 0xB000, fun w => .jumpV0 (fieldNNN w)⟩,
    ⟨0xF000, 0xC000, fun w => .random (fieldX w) (fieldKK w)⟩,
    ⟨0xF000, 0xD000, fun w => .drawSprite (fieldX w) (fieldY w) (fieldN w)⟩ ]

/-- The rows of R95 with the leading digits E and F. -/
def opRowsHigh : List OpRow :=
  [ ⟨0xF0FF, 0xE09E, fun w => .skipKeyDown (fieldX w)⟩,
    ⟨0xF0FF, 0xE0A1, fun w => .skipKeyUp (fieldX w)⟩,
    ⟨0xF0FF, 0xF007, fun w => .getDelay (fieldX w)⟩,
    ⟨0xF0FF, 0xF00A, fun w => .waitKey (fieldX w)⟩,
    ⟨0xF0FF, 0xF015, fun w => .setDelay (fieldX w)⟩,
    ⟨0xF0FF, 0xF018, fun w => .setSound (fieldX w)⟩,
    ⟨0xF0FF, 0xF01E, fun w => .addIndex (fieldX w)⟩,
    ⟨0xF0FF, 0xF029, fun w => .fontAddr (fieldX w)⟩,
    ⟨0xF0FF, 0xF033, fun w => .storeBCD (fieldX w)⟩,
    ⟨0xF0FF, 0xF055, fun w => .storeRegs (fieldX w)⟩,
    ⟨0xF0FF, 0xF065, fun w => .loadRegs (fieldX w)⟩ ]

/-- The opcode map (R95), in the table's order. -/
def opcodeMap : List OpRow := opRowsLow ++ opRowsAlu ++ opRowsMid ++ opRowsHigh

/-- Why bytes are no instruction. -/
inductive DecodeError where
  /-- No row of the opcode map matches the word (R94, R98). -/
  | unknownOpcode (w : Word)
  /-- Fewer than two bytes are left (R90). The fetch of the machine always supplies two. -/
  | truncated
deriving DecidableEq, Repr

/-- Decoding (R94, R124): the word's row of the opcode map, or `UnknownOpcode(w)`. -/
def decode (w : Word) : Except DecodeError Instr :=
  match opcodeMap.find? (fun r => r.selects w) with
  | some r => .ok (r.build w)
  | none => .error (.unknownOpcode w)

/-- The word of two bytes: the byte at the lower address is the high-order one (R63, R70). -/
def wordOfBytes (hi lo : Byte) : Word := BitVec.ofNat 16 (hi.toNat * 256 + lo.toNat)

/-- The two bytes of a word, the one for the lower address first (R70, R90). -/
def bytesOfWord (w : Word) : List Byte := [w.extractLsb' 8 8, w.extractLsb' 0 8]

/-- Decoding of any bytes: the first instruction and the bytes after it (R90). -/
def decodeBytes (bytes : List Byte) : Except DecodeError (Instr × List Byte) :=
  match bytes with
  | hi :: lo :: rest => (decode (wordOfBytes hi lo)).map (fun i => (i, rest))
  | _ => .error .truncated

/-- `match | nnn` (R100). -/
def encodeNNN (value : Word) (nnn : Addr) : Word := value ||| nnn.setWidth 16

/-- `match | (x << 8) | kk` (R100). -/
def encodeXKK (value : Word) (x : Reg) (kk : Byte) : Word :=
  value ||| BitVec.ofNat 16 x.val <<< 8 ||| kk.setWidth 16

/-- `match | (x << 8) | (y << 4) | n` (R100). -/
def encodeXYN (value : Word) (x y : Reg) (n : Nibble) : Word :=
  value ||| BitVec.ofNat 16 x.val <<< 8 ||| BitVec.ofNat 16 y.val <<< 4 ||| n.setWidth 16

/-- `match | (x << 8) | (y << 4)` (R100). -/
def encodeXY (value : Word) (x y : Reg) : Word :=
  value ||| BitVec.ofNat 16 x.val <<< 8 ||| BitVec.ofNat 16 y.val <<< 4

/-- `match | (x << 8)` (R100). -/
def encodeX (value : Word) (x : Reg) : Word := value ||| BitVec.ofNat 16 x.val <<< 8

/-- The word of an instruction (R95, R100). -/
def encode (i : Instr) : Word :=
  match i with
  | .clearScreen => 0x00E0
  | .ret => 0x00EE
  | .jump nnn => encodeNNN 0x1000 nnn
  | .call nnn => encodeNNN 0x2000 nnn
  | .skipEqImm x kk => encodeXKK 0x3000 x kk
  | .skipNeqImm x kk => encodeXKK 0x4000 x kk
  | .skipEqReg x y => encodeXY 0x5000 x y
  | .setImm x kk => encodeXKK 0x6000 x kk
  | .addImm x kk => encodeXKK 0x7000 x kk
  | .copy x y => encodeXY 0x8000 x y
  | .or x y => encodeXY 0x8001 x y
  | .and x y => encodeXY 0x8002 x y
  | .xor x y => encodeXY 0x8003 x y
  | .addReg x y => encodeXY 0x8004 x y
  | .subXY x y => encodeXY 0x8005 x y
  | .shR x y => encodeXY 0x8006 x y
  | .subYX x y => encodeXY 0x8007 x y
  | .shL x y => encodeXY 0x800E x y
  | .skipNeqReg x y n => encodeXYN 0x9000 x y n
  | .setIndex nnn => encodeNNN 0xA000 nnn
  | .jumpV0 nnn => encodeNNN 0xB000 nnn
  | .random x kk => encodeXKK 0xC000 x kk
  | .drawSprite x y n => encodeXYN 0xD000 x y n
  | .skipKeyDown x => encodeX 0xE09E x
  | .skipKeyUp x => encodeX 0xE0A1 x
  | .getDelay x => encodeX 0xF007 x
  | .waitKey x => encodeX 0xF00A x
  | .setDelay x => encodeX 0xF015 x
  | .setSound x => encodeX 0xF018 x
  | .addIndex x => encodeX 0xF01E x
  | .fontAddr x => encodeX 0xF029 x
  | .storeBCD x => encodeX 0xF033 x
  | .storeRegs x => encodeX 0xF055 x
  | .loadRegs x => encodeX 0xF065 x

/-- The bytes of an instruction as they lie in memory (R70, R90). -/
def encodeBytes (i : Instr) : List Byte := bytesOfWord (encode i)

/-- The instruction whose bits, numbered as `spec/opcode_table.json` numbers them, are `w`; bits from
`nbits` up are 0. Every instruction is one 16-bit word, laid out big-endian (R70, R90). -/
def decodeTableWord (nbits w : Nat) : Option Instr :=
  match decodeBytes (bytesOfWord (BitVec.ofNat 16 (w % 2 ^ nbits))) with
  | .ok (i, _) => some i
  | .error _ => none

end Sys2Proof
end

