-- ==== Sys2Proof/Machine/Memory.lean ====
section
/-!
DEFINITION. Main memory: its canonical form, reading and writing (R60 to R70).
-/

namespace Sys2Proof.Machine

/-- The byte at an address: the first cell listed for it, or what an unlisted address reads as. -/
def Memory.peek (m : Memory) (a : Nat) : Byte :=
  match m with
  | [] => unlistedByte a
  | c :: rest => if c.1 = a then c.2 else Memory.peek rest a

/-- A cell put in its place by rising address. -/
def Memory.insertCell (m : Memory) (c : Host.Cell) : Memory :=
  match m with
  | [] => [c]
  | d :: rest => if d.1 < c.1 then d :: Memory.insertCell rest c else c :: d :: rest

/-- `MEM[a] <- b`, keeping the canonical form: a byte equal to what an unlisted address reads as is
not listed. -/
def Memory.poke (m : Memory) (a : Nat) (b : Byte) : Memory :=
  let rest : Memory := m.filter (fun c => c.1 != a)
  if b = unlistedByte a then rest else Memory.insertCell rest (a, b)

/-- The canonical form: addresses strictly rising, all below 4096 (R60), and no cell equal to what an
unlisted address reads as. -/
abbrev Memory.wf (m : Memory) : Prop :=
  m.Pairwise (fun c d => c.1 < d.1) ∧ ∀ c ∈ m, c.1 < 4096 ∧ c.2 ≠ unlistedByte c.1

/-- The canonical memory whose byte at `a` is `f a` below `n`, and which lists nothing from `n` up. -/
def Memory.ofBytesBelow (n : Nat) (f : Nat → Byte) : Memory :=
  (List.range n).filterMap fun a => if f a = unlistedByte a then none else some (a, f a)

/-- The canonical memory whose byte at `a` is `f a`. Not unfolded by unification: its 4096 addresses
are reasoned about through its laws. -/
@[irreducible] def Memory.ofBytes (f : Nat → Byte) : Memory := Memory.ofBytesBelow 4096 f

/-- The latch of `OutOfBounds(addr)` (R250, R251); the address always fits 16 bits (R64). -/
def latchOutOfBounds (a : Nat) : FaultLatch := { code := .outOfBounds, info := BitVec.ofNat 16 a }

/-- `MemRead(addr, 1)` (R61): `addr` is not reduced to any width (R65). -/
def Memory.readByte (m : Memory) (a : Nat) : Except FaultLatch Byte :=
  if a < 4096 then .ok (m.peek a) else .error (latchOutOfBounds a)

/-- `MemWrite(addr, 1, v)` (R62). -/
def Memory.writeByte (m : Memory) (a : Nat) (b : Byte) : Except FaultLatch Memory :=
  if a < 4096 then .ok (m.poke a b) else .error (latchOutOfBounds a)

/-- `MemRead(addr, 2)`, big-endian (R63, R70): the byte at the lower address is read first. -/
def Memory.readWide (m : Memory) (a : Nat) : Except FaultLatch Word :=
  match m.readByte a with
  | .error f => .error f
  | .ok hi =>
    match m.readByte (a + 1) with
    | .error f => .error f
    | .ok lo => .ok (wordOfBytes hi lo)

/-- `n` bytes from `a` up, read in ascending order; the first address out of range faults (R64, R67). -/
def Memory.readBlock (m : Memory) (a n : Nat) : Except FaultLatch (List Byte) :=
  match n with
  | 0 => .ok []
  | n + 1 =>
    match m.readByte a with
    | .error f => .error f
    | .ok b =>
      match Memory.readBlock m (a + 1) n with
      | .error f => .error f
      | .ok bs => .ok (b :: bs)

/-- The bytes written from `a` up in ascending order; the first address out of range faults (R64, R67). -/
def Memory.writeBlock (m : Memory) (a : Nat) (bytes : List Byte) : Except FaultLatch Memory :=
  match bytes with
  | [] => .ok m
  | b :: bs =>
    match m.writeByte a b with
    | .error f => .error f
    | .ok m' => Memory.writeBlock m' (a + 1) bs

end Sys2Proof.Machine
end

