-- ==== Sys2Proof/Machine/Ops.lean ====
section
/-!
DEFINITION. The operations every meaning is built from: registers, the program counter, the return
stack, block transfers, TAKING A FAULT, and the parts of a step around the instruction (R120).
-/

namespace Sys2Proof.Machine

/-- Read `V[r]` (R7, R22). -/
def State.reg (s : State) (r : Reg) : Byte := s.v[r.val]

/-- `V[r] <- b` (R7, R22). -/
def State.setReg (s : State) (r : Reg) (b : Byte) : State := { s with v := s.v.set r.val b }

/-- `PC <- (PC + 2) mod 2^16` (R125). -/
def State.advance (s : State) : State := { s with pc := s.pc + 2 }

/-- `PC + 4` where the condition of a skip holds, else `PC + 2`, `mod 2^16` (R125, R148). -/
def State.skipIf (s : State) (c : Bool) : State := { s with pc := if c then s.pc + 4 else s.pc + 2 }

/-- `PC <- target` (R125, R149). -/
def State.jumpTo (s : State) (target : Word) : State := { s with pc := target }

/-- The fault latch is set (R121). -/
def State.halted (s : State) : Bool := s.fault.code != .none

/-- The latch of `StackOverflow` (R250, R252). -/
def latchStackOverflow : FaultLatch := { code := .stackOverflow, info := 0 }

/-- The latch of `StackUnderflow` (R250, R253). -/
def latchStackUnderflow : FaultLatch := { code := .stackUnderflow, info := 0 }

/-- The latch of `UnknownOpcode(w)` (R250, R254). -/
def latchUnknownOpcode (w : Word) : FaultLatch := { code := .unknownOpcode, info := w }

/-- What a step that takes the fault `f` leaves behind: a free value, which may depend on all of the
state the step faulted in (R258; log entry 2). -/
def State.residue (s : State) (f : FaultLatch) : State := Config.unspecified { s with fault := f }

/-- TAKING A FAULT (R9, R256, R258): the latch is written, there is no strobe (R128), and every other
piece of architectural state is a free value. Memory is put in canonical form, which fixes no byte of
it. The step's inputs, the host's schedule and the build-time parameters are not state of the block
and stay. -/
def State.raise (s : State) (f : FaultLatch) : State where
  v := (s.residue f).v
  i := (s.residue f).i
  pc := (s.residue f).pc
  dt := (s.residue f).dt
  st := (s.residue f).st
  sp := (s.residue f).sp
  stack := (s.residue f).stack
  mem := Memory.ofBytes (s.residue f).mem.peek
  fb := (s.residue f).fb
  runState := (s.residue f).runState
  fault := f
  strobe := false
  k := s.k
  rnd := s.rnd
  inputs := s.inputs
  tick := s.tick
  params := s.params

/-- The end of an instruction that may fault: its result, or the fault taken. -/
def State.settle (s : State) (r : Except FaultLatch State) : Host.Outcome State Fault Refusal :=
  match r with
  | .ok t => .next t
  | .error f => .next (s.raise f)

/-- Push: at `SP = 16` `StackOverflow`, else `STACK[SP] <- a; SP <- SP + 1` (R27). -/
def State.push (s : State) (a : Word) : Except FaultLatch State :=
  if h : s.sp.val < 16 then
    .ok { s with stack := s.stack.set s.sp.val a, sp := ⟨s.sp.val + 1, by omega⟩ }
  else .error latchStackOverflow

/-- Pop: at `SP = 0` `StackUnderflow`, else `SP <- SP - 1` and the entry at the new `SP`, which stays
where it is (R27). -/
def State.pop (s : State) : Except FaultLatch (Word × State) :=
  if h : 0 < s.sp.val then
    .ok (s.stack[s.sp.val - 1]'(by omega), { s with sp := ⟨s.sp.val - 1, by omega⟩ })
  else .error latchStackUnderflow

/-- `n` bytes from `I` up (R196). -/
def State.loadBlock (s : State) (n : Nat) : Except FaultLatch (List Byte) :=
  s.mem.readBlock s.i.toNat n

/-- The bytes stored from `I` up (R196). -/
def State.storeBlock (s : State) (bytes : List Byte) : Except FaultLatch State :=
  match s.mem.writeBlock s.i.toNat bytes with
  | .ok m => .ok { s with mem := m }
  | .error f => .error f

/-- What the host supplies with the next step: the head of its schedule, or free values (R122). -/
def State.nextInput (s : State) : HostInput :=
  match s.inputs with
  | [] => { keys := Config.keysAt s.tick, rnd := Config.rndAt s.tick }
  | x :: _ => x

/-- The start of a step (R120, R122): `K` and `RND` are sampled and `frame_strobe` falls. -/
def State.beginStep (s : State) : State :=
  { s with
    k := s.nextInput.keys
    rnd := s.nextInput.rnd
    inputs := s.inputs.tail
    tick := s.tick + 1
    strobe := false }

/-- Fetch (R123): the word at `PC`. -/
def State.fetchWord (s : State) : Except FaultLatch Word := s.mem.readWide s.pc.toNat

/-- Fetch, then decode (R123, R124): the instruction at `PC`, or the fault of the first that fails (R129). -/
def State.fetchInstr (s : State) : Except FaultLatch Instr :=
  match s.fetchWord with
  | .error f => .error f
  | .ok w =>
    match decode w with
    | .ok i => .ok i
    | .error _ => .error (latchUnknownOpcode w)

/-- One tick of a timer: down by one, floor at zero (R126). -/
def tickDown (t : Byte) : Byte := if t = 0 then 0 else t - 1

/-- The instruction is a `WaitKey` that found no key pressed (R127). -/
def State.waits (s : State) (i : Instr) : Bool :=
  match i with
  | .waitKey _ => s.k == 0
  | _ => false

/-- The end of a step that did not fault (R120, R126, R127): both timers tick, `RUNSTATE` is written.
A step that faulted ends where it faulted. -/
def State.endStep (s : State) (i : Instr) : State :=
  if s.halted then s
  else
    { s with
      dt := tickDown s.dt
      st := tickDown s.st
      runState := if s.waits i then .waitingForKey else .running }

end Sys2Proof.Machine
end

