-- ==== Sys2Proof/Machine/Operands.lean ====
section
/-!
DEFINITION. The operand forms: what an instruction reads from its fields and registers before it
writes anything (R160).
-/

namespace Sys2Proof.Machine

/-- The register a shift shifts: `SHIFT_SRC` (R169, R171; log entry 6). -/
def State.shiftSource (s : State) (x y : Reg) : Byte :=
  match s.params.shiftSrc with
  | .x => s.reg x
  | .y => s.reg y

/-- The key a register value names: its low four bits (R236; log entry 19). -/
def keyId (b : Byte) : Nat := b.toNat % 16

/-- `K[id] = 1` (R7, R230). -/
def State.keyDown (s : State) (id : Nat) : Bool := s.k.getLsbD id

/-- The least `j` in `0..15` with `K[j] = 1`, if any key is pressed (R232). -/
def lowestKey (k : BitVec 16) : Option Nat := (List.range 16).find? (fun j => k.getLsbD j)

/-- An address field zero-extended to 16 bits (R93). -/
def addrWord (nnn : Addr) : Word := nnn.setWidth 16

/-- The three decimal digits of a byte, hundreds first (R193; log entry 21). -/
def bcdDigits (a : Byte) : List Byte :=
  [ BitVec.ofNat 8 (a.toNat / 100),
    BitVec.ofNat 8 (a.toNat / 10 % 10),
    BitVec.ofNat 8 (a.toNat % 10) ]

/-- The registers `V0..Vx`, in order (R194). -/
def State.regBlock (s : State) (x : Reg) : List Byte := s.v.toList.take (x.val + 1)

/-- The registers from `V0` up replaced by the bytes; the others unchanged (R195). -/
def State.setRegBlock (s : State) (bytes : List Byte) : State :=
  { s with v := Vector.ofFn fun r : Fin 16 => (bytes[r.val]?).getD (s.reg r) }

end Sys2Proof.Machine
end

