-- ==== Sys2Proof/Machine/Alu.lean ====
section
/-!
DEFINITION. Register loads, the register ALU and `Random` (R160 to R175).

Arithmetic is exact on the naturals or integers and narrowed at the end (R6, R173). Sources are read
before anything is written (R160; log entry 15).
-/

namespace Sys2Proof.Machine

/-- An exact result narrowed to a register: `mod 256` (R7, R173). -/
def narrow (n : Int) : Byte := BitVec.ofInt 8 n

/-- `V[x] <- r`, then `PC + 2` (R160). -/
def State.writeResult (s : State) (x : Reg) (r : Byte) : State := (s.setReg x r).advance

/-- The result first, the flag last: at `x = F` the flag survives (R167; log entry 15). -/
def State.resultThenFlag (s : State) (x : Reg) (r f : Byte) : State :=
  ((s.setReg x r).setReg VF f).advance

/-- The flag first, the result last: at `x = F` the result survives (R168 to R171; log entry 15). -/
def State.flagThenResult (s : State) (x : Reg) (f r : Byte) : State :=
  ((s.setReg VF f).setReg x r).advance

/-- `SetImm Vx, kk` (R161). -/
def execSetImm (x : Reg) (kk : Byte) (s : State) : Host.Outcome State Fault Refusal :=
  .next (s.writeResult x kk)

/-- `AddImm Vx, kk` (R162). -/
def execAddImm (x : Reg) (kk : Byte) (s : State) : Host.Outcome State Fault Refusal :=
  .next (s.writeResult x (narrow ((s.reg x).toNat + kk.toNat)))

/-- `Copy Vx, Vy` (R163). -/
def execCopy (x y : Reg) (s : State) : Host.Outcome State Fault Refusal :=
  .next (s.writeResult x (s.reg y))

/-- `Or Vx, Vy` (R164). -/
def execOr (x y : Reg) (s : State) : Host.Outcome State Fault Refusal :=
  .next (s.writeResult x (s.reg x ||| s.reg y))

/-- `And Vx, Vy` (R165). -/
def execAnd (x y : Reg) (s : State) : Host.Outcome State Fault Refusal :=
  .next (s.writeResult x (s.reg x &&& s.reg y))

/-- `Xor Vx, Vy` (R166). -/
def execXor (x y : Reg) (s : State) : Host.Outcome State Fault Refusal :=
  .next (s.writeResult x (s.reg x ^^^ s.reg y))

/-- `AddReg Vx, Vy` (R167). -/
def execAddReg (x y : Reg) (s : State) : Host.Outcome State Fault Refusal :=
  .next (s.resultThenFlag x (narrow ((s.reg x).toNat + (s.reg y).toNat))
    (carryFlag (s.reg x) (s.reg y)))

/-- `SubXY Vx, Vy` (R168): the difference wraps (R173; log entry 17). -/
def execSubXY (x y : Reg) (s : State) : Host.Outcome State Fault Refusal :=
  .next (s.flagThenResult x (notBorrowFlag (s.reg x) (s.reg y))
    (narrow ((s.reg x).toNat - (s.reg y).toNat)))

/-- `ShR Vx, Vy` (R169). -/
def execShR (x y : Reg) (s : State) : Host.Outcome State Fault Refusal :=
  .next (s.flagThenResult x (shiftOutLowFlag (s.shiftSource x y)) (s.shiftSource x y >>> 1))

/-- `SubYX Vx, Vy` (R170). -/
def execSubYX (x y : Reg) (s : State) : Host.Outcome State Fault Refusal :=
  .next (s.flagThenResult x (notBorrowFlag (s.reg y) (s.reg x))
    (narrow ((s.reg y).toNat - (s.reg x).toNat)))

/-- `ShL Vx, Vy` (R171). -/
def execShL (x y : Reg) (s : State) : Host.Outcome State Fault Refusal :=
  .next (s.flagThenResult x (shiftOutHighFlag (s.shiftSource x y)) (s.shiftSource x y <<< 1))

/-- `Random Vx, kk` (R172). -/
def execRandom (x : Reg) (kk : Byte) (s : State) : Host.Outcome State Fault Refusal :=
  .next (s.writeResult x (s.rnd &&& kk))

end Sys2Proof.Machine
end

