-- ==== Sys2Proof/Machine/Control.lean ====
section
/-!
DEFINITION. Control transfer: `Return`, `Jump`, `Call`, the four register skips, `JumpV0` (R140 to R149).
-/

namespace Sys2Proof.Machine

/-- `Return` (R140). -/
def execReturn (s : State) : Host.Outcome State Fault Refusal :=
  s.settle (s.pop.map fun r => r.2.jumpTo r.1)

/-- `Jump nnn` (R141). -/
def execJump (nnn : Addr) (s : State) : Host.Outcome State Fault Refusal :=
  .next (s.jumpTo (addrWord nnn))

/-- `Call nnn` (R142): the value pushed is the return address `PC + 2` (log entry 28). -/
def execCall (nnn : Addr) (s : State) : Host.Outcome State Fault Refusal :=
  s.settle ((s.push (s.pc + 2)).map fun t => t.jumpTo (addrWord nnn))

/-- `SkipEqImm Vx, kk` (R143). -/
def execSkipEqImm (x : Reg) (kk : Byte) (s : State) : Host.Outcome State Fault Refusal :=
  .next (s.skipIf (s.reg x == kk))

/-- `SkipNeqImm Vx, kk` (R144). -/
def execSkipNeqImm (x : Reg) (kk : Byte) (s : State) : Host.Outcome State Fault Refusal :=
  .next (s.skipIf (s.reg x != kk))

/-- `SkipEqReg Vx, Vy` (R145). -/
def execSkipEqReg (x y : Reg) (s : State) : Host.Outcome State Fault Refusal :=
  .next (s.skipIf (s.reg x == s.reg y))

/-- `SkipNeqReg Vx, Vy` (R146); the low digit is ignored (R97; log entry 16). -/
def execSkipNeqReg (x y : Reg) (_n : Nibble) (s : State) : Host.Outcome State Fault Refusal :=
  .next (s.skipIf (s.reg x != s.reg y))

/-- `JumpV0 nnn` (R147): the sum is not reduced to 12 bits. -/
def execJumpV0 (nnn : Addr) (s : State) : Host.Outcome State Fault Refusal :=
  .next (s.jumpTo (addrWord nnn + (s.reg 0).setWidth 16))

end Sys2Proof.Machine
end

