-- ==== Sys2Proof/Machine/Index.lean ====
section
/-!
DEFINITION. The index register and memory transfer: `SetIndex`, `AddIndex`, `FontAddr`, `StoreBCD`,
`StoreRegs`, `LoadRegs` (R190 to R196).
-/

namespace Sys2Proof.Machine

/-- `SetIndex nnn` (R190). -/
def execSetIndex (nnn : Addr) (s : State) : Host.Outcome State Fault Refusal :=
  .next { s with i := addrWord nnn }.advance

/-- `AddIndex Vx` (R191): the 16-bit sum is kept, the flag is of the mathematical sum (log entry 20). -/
def execAddIndex (x : Reg) (s : State) : Host.Outcome State Fault Refusal :=
  let sum := s.i.toNat + (s.reg x).toNat
  .next ({ s with i := BitVec.ofNat 16 sum }.setReg VF (indexOverflowFlag sum)).advance

/-- `FontAddr Vx` (R192): the whole of `Vx`, not its low digit (log entry 20). -/
def execFontAddr (x : Reg) (s : State) : Host.Outcome State Fault Refusal :=
  .next { s with i := BitVec.ofNat 16 ((s.reg x).toNat * 5) }.advance

/-- `StoreBCD Vx` (R193). -/
def execStoreBCD (x : Reg) (s : State) : Host.Outcome State Fault Refusal :=
  s.settle ((s.storeBlock (bcdDigits (s.reg x))).map State.advance)

/-- `StoreRegs Vx` (R194): `I` is unchanged (R196). -/
def execStoreRegs (x : Reg) (s : State) : Host.Outcome State Fault Refusal :=
  s.settle ((s.storeBlock (s.regBlock x)).map State.advance)

/-- `LoadRegs Vx` (R195): `I` is unchanged (R196). -/
def execLoadRegs (x : Reg) (s : State) : Host.Outcome State Fault Refusal :=
  s.settle ((s.loadBlock (x.val + 1)).map fun bytes => (s.setRegBlock bytes).advance)

end Sys2Proof.Machine
end

