-- ==== Sys2Proof/Machine/KeysTimers.lean ====
section
/-!
DEFINITION. Keyboard and timer instructions (R230 to R236). `K` is the vector sampled at the start of
the step (R122); the end-of-step decrement is `State.endStep` (R126).
-/

namespace Sys2Proof.Machine

/-- `SkipKeyDown Vx` (R230). -/
def execSkipKeyDown (x : Reg) (s : State) : Host.Outcome State Fault Refusal :=
  .next (s.skipIf (s.keyDown (keyId (s.reg x))))

/-- `SkipKeyUp Vx` (R231). -/
def execSkipKeyUp (x : Reg) (s : State) : Host.Outcome State Fault Refusal :=
  .next (s.skipIf (!s.keyDown (keyId (s.reg x))))

/-- `WaitKey` once the keys are looked at: with none pressed nothing is written, else the lowest
pressed key is latched (R232; log entry 27). -/
def State.latchKey (s : State) (x : Reg) : State :=
  match lowestKey s.k with
  | none => s
  | some id => (s.setReg x (BitVec.ofNat 8 id)).advance

/-- `WaitKey Vx` (R232). -/
def execWaitKey (x : Reg) (s : State) : Host.Outcome State Fault Refusal :=
  .next (s.latchKey x)

/-- `GetDelay Vx` (R233). -/
def execGetDelay (x : Reg) (s : State) : Host.Outcome State Fault Refusal :=
  .next (s.setReg x s.dt).advance

/-- `SetDelay Vx` (R234). -/
def execSetDelay (x : Reg) (s : State) : Host.Outcome State Fault Refusal :=
  .next { s with dt := s.reg x }.advance

/-- `SetSound Vx` (R235): with the guard, a value of 0, 1 or 2 is not written (log entry 7). -/
def execSetSound (x : Reg) (s : State) : Host.Outcome State Fault Refusal :=
  let a := s.reg x
  let writes := !s.params.setSoundGuard || decide (a.toNat > 2)
  .next { s with st := if writes then a else s.st }.advance

end Sys2Proof.Machine
end

