-- ==== Sys2Proof/Machine/Video.lean ====
section
/-!
DEFINITION. The framebuffer, the sprite blitter, and `ClearScreen` and `DrawSprite` (R210 to R217).
-/

namespace Sys2Proof.Machine

/-- Every pixel 0 (R211). -/
def blankScreen : Screen := Vector.replicate 32 (Vector.replicate 64 false)

/-- `FB[r][c]`; outside the grid there is no pixel and the answer is 0. -/
def Screen.pixel (fb : Screen) (r c : Nat) : Bool :=
  if h : r < 32 ∧ c < 64 then fb[r][c] else false

/-- A sprite byte's bit for a column: the most significant bit is the leftmost (R212, R213). -/
def spriteBit (b : Byte) (col : Nat) : Bool := b.getLsbD (7 - col)

/-- One sprite pixel at column `c`, row `r`: XORed in, a collision recorded; outside the grid it is
skipped (R212, R213, R214, R215). -/
def blitPixel (r c : Nat) (bit : Bool) (acc : Screen × Bool) : Screen × Bool :=
  if h : r < 32 ∧ c < 64 then
    let old := acc.1[r][c]
    (acc.1.set r (acc.1[r].set c (old ^^ bit)), acc.2 || (old && bit))
  else acc

/-- One sprite row: its eight pixels from left to right (R212). -/
def blitRow (r px : Nat) (b : Byte) (acc : Screen × Bool) : Screen × Bool :=
  (List.range 8).foldl (fun acc col => blitPixel r (px + col) (spriteBit b col) acc) acc

/-- The rows of a sprite from row `r` down (R212). -/
def blitRows (r px : Nat) (bytes : List Byte) (acc : Screen × Bool) : Screen × Bool :=
  match bytes with
  | [] => acc
  | b :: bs => blitRows (r + 1) px bs (blitRow r px b acc)

/-- The whole sprite at column `px`, row `py`, neither reduced (R214): the new framebuffer, and
whether a pixel was erased. -/
def blit (fb : Screen) (px py : Nat) (bytes : List Byte) : Screen × Bool :=
  blitRows py px bytes (fb, false)

/-- `ClearScreen` (R211). -/
def execClearScreen (s : State) : Host.Outcome State Fault Refusal :=
  .next { s with fb := blankScreen }.advance

/-- What `DrawSprite` does once its bytes are read: blit, flag, strobe (R212, R216). -/
def State.drawBytes (s : State) (x y : Reg) (bytes : List Byte) : State :=
  let r := blit s.fb (s.reg x).toNat (s.reg y).toNat bytes
  ({ s with fb := r.1, strobe := true }.setReg VF (collisionFlag r.2)).advance

/-- `DrawSprite Vx, Vy, n` (R212). All `n` bytes are read, also those of clipped rows (R217). -/
def execDrawSprite (x y : Reg) (n : Nibble) (s : State) : Host.Outcome State Fault Refusal :=
  s.settle ((s.loadBlock n.toNat).map fun bytes => s.drawBytes x y bytes)

end Sys2Proof.Machine
end

