-- ==== Sys2Proof/Machine/Step.lean ====
section
/-!
DEFINITION. One step of the machine (R120), and an instruction placed where the next step fetches it.
-/

namespace Sys2Proof.Machine

/-- One step (R120). A halted machine changes nothing and pulses nothing (R121). Otherwise the inputs
are sampled, the instruction at `PC` is fetched and decoded, executed, and the timers tick; a fault
anywhere is taken and ends the step (R129, R260). -/
def step (s : State) : Host.Outcome State Fault Refusal :=
  if s.halted then .next { s with strobe := false }
  else
    match s.beginStep.fetchInstr with
    | .error f => .next (s.beginStep.raise f)
    | .ok i =>
      match exec i s.beginStep with
      | .next t => .next (t.endStep i)
      | .fault r => .fault r
      | .refused r => .refused r

/-- `s` with the instruction whose bits are `w` (numbered as the opcode table numbers them, those from
`nbits` up being 0) stored big-endian at `PC`, where `step` fetches (R70, R123). Where no two bytes
lie at `PC` nothing can be stored and `s` stays. This stands for the host's load of a program
(R290; log entry 25). -/
def State.withFetchWord (s : State) (nbits w : Nat) : State :=
  let word : Word := BitVec.ofNat 16 (w % 2 ^ nbits)
  match s.mem.writeBlock s.pc.toNat (bytesOfWord word) with
  | .ok m => { s with mem := m }
  | .error _ => s

end Sys2Proof.Machine
end

