-- ==== Sys2Proof/Machine/Outputs.lean ====
section
/-!
DEFINITION. The outputs the host can read between steps (R33, R44, R272, R273).
`frame_strobe` is the field `strobe`, `run_state` the field `runState`.
-/

namespace Sys2Proof.Machine

/-- The numeric fault code (R31, R250; log entry 13). -/
def FaultCode.number (c : FaultCode) : BitVec 3 :=
  match c with
  | .none => 0
  | .outOfBounds => 1
  | .stackOverflow => 2
  | .stackUnderflow => 3
  | .unknownOpcode => 4

/-- The output `fault_code` (R33). -/
def State.faultCode (s : State) : BitVec 3 := s.fault.code.number

/-- The output `fault_info` (R33). -/
def State.faultInfo (s : State) : Word := s.fault.info

/-- The output `audio_on`: Play iff `ST != 0` (R26, R272). -/
def State.audioOn (s : State) : Bool := s.st != 0

/-- The output `fb`: 2048 pixels, row-major, pixel `(r, c)` at `r * 64 + c` (R33, R210). -/
def State.frame (s : State) : List Bool := s.fb.toList.flatMap fun row => row.toList

end Sys2Proof.Machine
end

