-- ==== Sys2Proof/Machine/Launch.lean ====
section
/-!
DEFINITION. Reset with a program: the load image and the host's launch (R290 to R292).
-/

namespace Sys2Proof.Machine

/-- What the host supplies at reset (R4, R291, R295). -/
structure Launch where
  /-- `PROGRAM`: bytes, not words (R71). -/
  program : List Byte
  /-- `FONT`: 80 bytes (R69; log entry 8). -/
  font : Vector Byte 80
  /-- `MEM_TAIL`, from the first address after the program; 0 where the list has ended (log entry 9). -/
  tail : List Byte
  /-- `SHIFT_SRC` and `SETSOUND_GUARD` (log entries 6, 7). -/
  params : Params
  /-- The inputs of the first steps (log entries 3, 4, 5). -/
  inputs : List HostInput
deriving DecidableEq, Repr

/-- Why a launch has no run. -/
inductive LoadError where
  /-- `ProgramTooLarge`: raised by the loader to the host, never latched (R292; log entry 31). -/
  | programTooLarge (length : Nat)
deriving DecidableEq, Repr

/-- The byte of the load image at an address (R291). -/
def Launch.imageByte (l : Launch) (a : Nat) : Byte :=
  if a < 0x50 then (l.font.toList[a]?).getD 0
  else if a < 0x200 then 0
  else if a < 0x200 + l.program.length then (l.program[a - 0x200]?).getD 0
  else (l.tail[a - (0x200 + l.program.length)]?).getD 0

/-- The registers, timers, stack, framebuffer, latch and run state as reset leaves them (R40 to R42,
R44); what the launch supplies is put in by `State.load`. -/
def Launch.state (l : Launch) : State :=
  { State.reset with
    mem := Memory.ofBytes l.imageByte
    params := l.params
    inputs := l.inputs }

/-- Reset with load (R290, R291): the launched machine, or `ProgramTooLarge` (R292). -/
def State.load (l : Launch) : Except LoadError State :=
  if programFits l.program then .ok l.state
  else .error (.programTooLarge l.program.length)

/-- A launch of a program with every OPEN parameter at its default (R4). -/
def Launch.ofProgram (program : List Byte) : Launch :=
  { program := program
    font := Vector.ofFn fun j : Fin 80 => (defaultFont[j.val]?).getD 0
    tail := []
    params := defaultParams
    inputs := [] }

end Sys2Proof.Machine
end

