-- ==== Sys2Proof/Safety.lean ====
section
/-!
DEFINITION. The terms claims are stated in: what a step leaves unchanged, runs, a run that stays safe,
and the invariant of the machine.
-/

namespace Sys2Proof.Machine

/-- The fields of `State`, to say which of them an instruction leaves unchanged. -/
inductive Field where
  | v | i | pc | dt | st | sp | stack | mem | fb | runState | fault | strobe | k | rnd | inputs
  | tick | params
deriving DecidableEq, Repr

/-- The field holds the same in both states; of memory, every byte reads the same. -/
def Field.same (f : Field) (s t : State) : Prop :=
  match f with
  | .v => t.v = s.v
  | .i => t.i = s.i
  | .pc => t.pc = s.pc
  | .dt => t.dt = s.dt
  | .st => t.st = s.st
  | .sp => t.sp = s.sp
  | .stack => t.stack = s.stack
  | .mem => ∀ a, t.mem.peek a = s.mem.peek a
  | .fb => t.fb = s.fb
  | .runState => t.runState = s.runState
  | .fault => t.fault = s.fault
  | .strobe => t.strobe = s.strobe
  | .k => t.k = s.k
  | .rnd => t.rnd = s.rnd
  | .inputs => t.inputs = s.inputs
  | .tick => t.tick = s.tick
  | .params => t.params = s.params

/-- Everything but the named fields is unchanged from `s` to `t`. -/
def State.sameBut (s : State) (changed : List Field) (t : State) : Prop :=
  ∀ f, f ∉ changed → f.same s t

/-- Every register but the named ones is unchanged from `s` to `t`. -/
def State.sameRegsBut (s : State) (changed : List Reg) (t : State) : Prop :=
  ∀ r, r ∉ changed → t.reg r = s.reg r

/-- Every byte outside the `n` bytes from `a` up is unchanged from `s` to `t`. -/
def State.sameMemOutside (s : State) (a n : Nat) (t : State) : Prop :=
  ∀ b, (b < a ∨ a + n ≤ b) → t.mem.peek b = s.mem.peek b

/-- What address `b` reads as once the bytes are stored from `I` up: the stored byte inside the block,
what memory held before outside it (R75). -/
def State.byteAfterStore (s : State) (bytes : List Byte) (b : Nat) : Byte :=
  if s.i.toNat ≤ b ∧ b < s.i.toNat + bytes.length then (bytes[b - s.i.toNat]?).getD 0
  else s.mem.peek b

/-- Executing `i` in `s` answers a next state, and that state is as `P` says. -/
def Completes (i : Instr) (s : State) (P : State → Prop) : Prop := ∃ t, exec i s = .next t ∧ P t

/-- A whole step from `s`, whose instruction at `PC` is `i`, answers a next state as `P` says. -/
def StepCompletes (i : Instr) (s : State) (P : State → Prop) : Prop :=
  s.halted = false → s.fetchInstr = .ok i → ∃ t, step s = .next t ∧ P t

/-- Every word that selects the row (R94) decodes to the row's instruction. -/
def RowDecodes (mask value : Word) (build : Word → Instr) : Prop :=
  ∀ w, w &&& mask = value → decode w = .ok (build w)

/-- The `V` registers an instruction can write, by the table of R174. -/
def regsWritten (i : Instr) : List Reg :=
  match i with
  | .clearScreen | .ret | .jump _ | .call _ | .skipEqImm _ _ | .skipNeqImm _ _ | .skipEqReg _ _
  | .skipNeqReg _ _ _ | .setIndex _ | .jumpV0 _ | .skipKeyDown _ | .skipKeyUp _ | .setDelay _
  | .setSound _ | .fontAddr _ | .storeBCD _ | .storeRegs _ => []
  | .setImm x _ | .addImm x _ | .copy x _ | .or x _ | .and x _ | .xor x _ | .random x _
  | .getDelay x | .waitKey x => [x]
  | .addReg x _ | .subXY x _ | .shR x _ | .subYX x _ | .shL x _ => [x, VF]
  | .drawSprite _ _ _ | .addIndex _ => [VF]
  | .loadRegs x => (List.finRange 16).filter (fun r => decide (r ≤ x))

/-- The next `PC` of an instruction that does not fault, by the table of R133. -/
def nextPc (i : Instr) (s : State) : Word :=
  match i with
  | .jump nnn | .call nnn => addrWord nnn
  | .ret => (s.stack[s.sp.val - 1]?).getD 0
  | .jumpV0 nnn => addrWord nnn + (s.reg 0).setWidth 16
  | .skipEqImm x kk => if s.reg x = kk then s.pc + 4 else s.pc + 2
  | .skipNeqImm x kk => if s.reg x = kk then s.pc + 2 else s.pc + 4
  | .skipEqReg x y => if s.reg x = s.reg y then s.pc + 4 else s.pc + 2
  | .skipNeqReg x y _ => if s.reg x = s.reg y then s.pc + 2 else s.pc + 4
  | .skipKeyDown x => if s.k.getLsbD (keyId (s.reg x)) then s.pc + 4 else s.pc + 2
  | .skipKeyUp x => if s.k.getLsbD (keyId (s.reg x)) then s.pc + 2 else s.pc + 4
  | .waitKey _ => if s.k = 0 then s.pc else s.pc + 2
  | .clearScreen | .setImm _ _ | .addImm _ _ | .copy _ _ | .or _ _ | .and _ _ | .xor _ _
  | .addReg _ _ | .subXY _ _ | .shR _ _ | .subYX _ _ | .shL _ _ | .setIndex _ | .random _ _
  | .drawSprite _ _ _ | .getDelay _ | .setDelay _ | .setSound _ | .addIndex _ | .fontAddr _
  | .storeBCD _ | .storeRegs _ | .loadRegs _ => s.pc + 2

/-- The bit of the sprite at column `px`, row `py` that covers the pixel in row `r`, column `c`; 0
outside the sprite's rectangle. Byte `r - py` is the row's, top row first, and within it bit 7 is
the leftmost pixel, bit 0 the rightmost (R213). -/
def spriteAt (bytes : List Byte) (px py r c : Nat) : Bool :=
  if py ≤ r ∧ px ≤ c ∧ c < px + 8 then
    match bytes[r - py]? with
    | some b => b.getLsbD (7 - (c - px))
    | none => false
  else false

/-- `f 0, f 1, ..., f n` is a run of `n` steps none of which faults. -/
def SafeRun (f : Nat → State) (n : Nat) : Prop :=
  (f 0).halted = false ∧
    ∀ j, j < n → step (f j) = .next (f (j + 1)) ∧ (f (j + 1)).halted = false

/-- The end of a run by the spec's convention (R130): no fault, and `PC` at a `Jump` to itself. -/
def State.parked (s : State) : Prop :=
  s.halted = false ∧ ∃ nnn, s.fetchInstr = .ok (.jump nnn) ∧ addrWord nnn = s.pc

/-- What `FAULT.info` can be under each code (R31, R250): 0 where nothing is reported, an address
beyond memory for `OutOfBounds` (R251), a word no row matches for `UnknownOpcode` (R254). -/
def FaultLatch.legal (f : FaultLatch) : Prop :=
  match f.code with
  | .none | .stackOverflow | .stackUnderflow => f.info = 0
  | .outOfBounds => 4096 ≤ f.info.toNat
  | .unknownOpcode => decode f.info = .error (.unknownOpcode f.info)

/-- `PC` and the live return addresses of a machine that runs are in the ranges R24 and R140 derive. -/
def State.pcInRange (s : State) : Prop :=
  s.pc.toNat ≤ 0x10FE ∧ ∀ j (h : j < 16), j < s.sp.val → s.stack[j].toNat ≤ 0x1000

/-- The invariant of the machine: memory in canonical form, a legal latch, and, unless halted (a
halted machine's registers are unspecified, R258), `PC` and the live return addresses in range. -/
structure State.Inv (s : State) : Prop where
  memory : s.mem.wf
  latch : s.fault.legal
  running : s.halted = false → s.pcInRange

end Sys2Proof.Machine
end

