-- ==== Sys2Proof/Certificates/Slice0/Obligations.lean ====
section
/-!
DEFINITION. The statements about the machine, for the provers. Nothing is proved here.

A statement of basis "stated" formalises the numbered rules it cites; one of basis "derived" rests on
the named sections, and its docstring says where it rests on a decision of the spec or of the model.
-/

open Sys2Proof Sys2Proof.Machine

/-- Sample words of every family decode to the instructions the spec names for them. Rests on
spec/30_encoding.md section 2, the opcode map; spec/95_test_vectors.md part 2. Ten words, at least
one of each family of the opcode table, decode to the operation and operands the spec's own
examples give. The 8xyN word rests on R96's assignment (log entry 14). That 912F decodes, and
keeps its digit F as an operand, rests on the spec's decision D16 and on the model's choice to
keep the digit (log entry 16). -/
def Obligations.SampleWordsDecode : Prop :=
  decode 0x1ABC = .ok (.jump 0xABC) ∧
  decode 0x00EE = .ok .ret ∧
  decode 0x332A = .ok (.skipEqImm 3 0x2A) ∧
  decode 0x912F = .ok (.skipNeqReg 1 2 0xF) ∧
  decode 0x6A77 = .ok (.setImm 0xA 0x77) ∧
  decode 0x8124 = .ok (.addReg 1 2) ∧
  decode 0xF433 = .ok (.storeBCD 4) ∧
  decode 0xD125 = .ok (.drawSprite 1 2 5) ∧
  decode 0xE2A1 = .ok (.skipKeyUp 2) ∧
  decode 0xF318 = .ok (.setSound 3)

/-- The operand fields are the digits of the word at the positions of the field table. Rests on
spec/30_encoding.md section 1, the field table. For every word: x is bits 11..8, y is bits 7..4, n
is bits 3..0, kk is bits 7..0 and nnn is bits 11..0, as numbers; and the fields overlap as kk =
{y, n} and nnn = {x, y, n}. -/
def Obligations.FieldsAreDigitsOfTheWord : Prop :=
  ∀ w : Word,
    (fieldX w).val = w.toNat / 256 % 16 ∧
    (fieldY w).val = w.toNat / 16 % 16 ∧
    (fieldN w).toNat = w.toNat % 16 ∧
    (fieldKK w).toNat = w.toNat % 256 ∧
    (fieldNNN w).toNat = w.toNat % 4096 ∧
    (fieldKK w).toNat = (fieldY w).val * 16 + (fieldN w).toNat ∧
    (fieldNNN w).toNat = (fieldX w).val * 256 + (fieldKK w).toNat

/-- Every word that matches a row of the opcode map decodes to that row's operation. Rests on
spec/30_encoding.md section 2, the opcode map and the decoding rule. For each of the 34 rows:
every word w with (w & mask) = match decodes to the row's operation with its fields taken from w.
The nine 8xyN rows rest on R96's assignment and the 9xyN row on R97 (log entries 14, 16). -/
def Obligations.OpcodeMapDecidesEveryWord : Prop :=
  RowDecodes 0xFFFF 0x00E0 (fun _ => .clearScreen) ∧
  RowDecodes 0xFFFF 0x00EE (fun _ => .ret) ∧
  RowDecodes 0xF000 0x1000 (fun w => .jump (fieldNNN w)) ∧
  RowDecodes 0xF000 0x2000 (fun w => .call (fieldNNN w)) ∧
  RowDecodes 0xF000 0x3000 (fun w => .skipEqImm (fieldX w) (fieldKK w)) ∧
  RowDecodes 0xF000 0x4000 (fun w => .skipNeqImm (fieldX w) (fieldKK w)) ∧
  RowDecodes 0xF00F 0x5000 (fun w => .skipEqReg (fieldX w) (fieldY w)) ∧
  RowDecodes 0xF000 0x6000 (fun w => .setImm (fieldX w) (fieldKK w)) ∧
  RowDecodes 0xF000 0x7000 (fun w => .addImm (fieldX w) (fieldKK w)) ∧
  RowDecodes 0xF00F 0x8000 (fun w => .copy (fieldX w) (fieldY w)) ∧
  RowDecodes 0xF00F 0x8001 (fun w => .or (fieldX w) (fieldY w)) ∧
  RowDecodes 0xF00F 0x8002 (fun w => .and (fieldX w) (fieldY w)) ∧
  RowDecodes 0xF00F 0x8003 (fun w => .xor (fieldX w) (fieldY w)) ∧
  RowDecodes 0xF00F 0x8004 (fun w => .addReg (fieldX w) (fieldY w)) ∧
  RowDecodes 0xF00F 0x8005 (fun w => .subXY (fieldX w) (fieldY w)) ∧
  RowDecodes 0xF00F 0x8006 (fun w => .shR (fieldX w) (fieldY w)) ∧
  RowDecodes 0xF00F 0x8007 (fun w => .subYX (fieldX w) (fieldY w)) ∧
  RowDecodes 0xF00F 0x800E (fun w => .shL (fieldX w) (fieldY w)) ∧
  RowDecodes 0xF000 0x9000 (fun w => .skipNeqReg (fieldX w) (fieldY w) (fieldN w)) ∧
  RowDecodes 0xF000 0xA000 (fun w => .setIndex (fieldNNN w)) ∧
  RowDecodes 0xF000 0xB000 (fun w => .jumpV0 (fieldNNN w)) ∧
  RowDecodes 0xF000 0xC000 (fun w => .random (fieldX w) (fieldKK w)) ∧
  RowDecodes 0xF000 0xD000 (fun w => .drawSprite (fieldX w) (fieldY w) (fieldN w)) ∧
  RowDecodes 0xF0FF 0xE09E (fun w => .skipKeyDown (fieldX w)) ∧
  RowDecodes 0xF0FF 0xE0A1 (fun w => .skipKeyUp (fieldX w)) ∧
  RowDecodes 0xF0FF 0xF007 (fun w => .getDelay (fieldX w)) ∧
  RowDecodes 0xF0FF 0xF00A (fun w => .waitKey (fieldX w)) ∧
  RowDecodes 0xF0FF 0xF015 (fun w => .setDelay (fieldX w)) ∧
  RowDecodes 0xF0FF 0xF018 (fun w => .setSound (fieldX w)) ∧
  RowDecodes 0xF0FF 0xF01E (fun w => .addIndex (fieldX w)) ∧
  RowDecodes 0xF0FF 0xF029 (fun w => .fontAddr (fieldX w)) ∧
  RowDecodes 0xF0FF 0xF033 (fun w => .storeBCD (fieldX w)) ∧
  RowDecodes 0xF0FF 0xF055 (fun w => .storeRegs (fieldX w)) ∧
  RowDecodes 0xF0FF 0xF065 (fun w => .loadRegs (fieldX w))

/-- Decode and encode agree: the word of every instruction decodes to that instruction. Rests on
spec/30_encoding.md sections 2 and 4. For every instruction, with every operand at every value the
encoding admits, decoding its word gives the instruction back; and decoding its two bytes, high
byte first, with any bytes after them gives the instruction and leaves those bytes. The ignored
digit of 9xyN is kept in the instruction by the model's choice (log entry 16). -/
def Obligations.DecodeOfEncodeIsTheInstruction : Prop :=
  (∀ i : Instr, decode (encode i) = .ok i) ∧
    ∀ (i : Instr) (rest : List Byte), decodeBytes (encodeBytes i ++ rest) = .ok (i, rest)

/-- No bit of an encoding is dropped: a word that decodes is the word of what it decodes to. Rests on
spec/30_encoding.md sections 2, 3 and 4. For every word w that decodes to an instruction i, the
word of i is w; so two different words never decode to the same instruction, the ignored digit of
9xyN included. For 9xyN this is the model's choice: the spec says that the digit is ignored, and
the model's constructor keeps it although nothing reads it (log entry 16). The 8xyN words rest on
R96's assignment (log entry 14). -/
def Obligations.EncodeOfDecodeIsTheWord : Prop :=
  ∀ (w : Word) (i : Instr), decode w = .ok i → encode i = w

/-- The words that decode to nothing are exactly those of the table of unknown encodings. Rests on
spec/30_encoding.md section 3, the table of unknown words. A word is unknown iff it is 0nnn other
than 00E0 and 00EE, or 5xyN with N not 0, or 8xyN with N in 8..D or F, or ExNN with NN neither 9E
nor A1, or FxNN with NN none of the nine values; and the error names the word. That no 9xyN is
unknown is the spec's decision D16 (log entry 16). -/
def Obligations.UnknownWordsAreTheListedOnes : Prop :=
  ∀ w : Word,
    decode w = .error (.unknownOpcode w) ↔
      let digit := w.toNat / 4096
      (digit = 0 ∧ w ≠ 0x00E0 ∧ w ≠ 0x00EE) ∨
      (digit = 5 ∧ fieldN w ≠ 0) ∨
      (digit = 8 ∧ (fieldN w).toNat ∈ [8, 9, 0xA, 0xB, 0xC, 0xD, 0xF]) ∨
      (digit = 0xE ∧ (fieldKK w).toNat ∉ [0x9E, 0xA1]) ∨
      (digit = 0xF ∧
        (fieldKK w).toNat ∉ [0x07, 0x0A, 0x15, 0x18, 0x1E, 0x29, 0x33, 0x55, 0x65])

/-- A step runs the instruction that the two bytes at PC decode to. Rests on spec/40_step_cycle.md,
the Step pseudocode and the rules on sampling, fetch, decode and execute. Where the machine is not
halted and the bytes at PC and PC + 1 decode to i, step answers what exec of i answers on the
state after beginStep, ended by endStep. beginStep samples the host's input into K and RND, takes
exactly that one entry off the schedule, counts the step, drops the strobe and changes nothing
else; the input is the schedule's first entry, or free values where the schedule has ended (the
schedule, the counter and the free values are the model's choice, log entries 3, 4, 5). endStep
changes only the timers and RUNSTATE, and nothing where the instruction faulted (the spec's
decision D3, log entry 2). -/
def Obligations.StepRunsTheDecodedInstruction : Prop :=
  ∀ (s : State) (i : Instr), s.halted = false → s.pc.toNat + 1 < 4096 →
    decode (wordOfBytes (s.mem.peek s.pc.toNat) (s.mem.peek (s.pc.toNat + 1))) = .ok i →
    (∃ t, exec i s.beginStep = .next t ∧ step s = .next (t.endStep i)) ∧
    (s.beginStep.k = s.nextInput.keys ∧ s.beginStep.rnd = s.nextInput.rnd ∧
      s.beginStep.inputs = s.inputs.tail ∧ s.beginStep.tick = s.tick + 1 ∧
      s.beginStep.strobe = false ∧ s.sameBut [.k, .rnd, .inputs, .tick, .strobe] s.beginStep) ∧
    ((∀ x rest, s.inputs = x :: rest → s.nextInput = x) ∧
      (s.inputs = [] → s.nextInput.keys = Config.keysAt s.tick ∧
        s.nextInput.rnd = Config.rndAt s.tick)) ∧
    (∀ t : State, t.halted = false → t.sameBut [.dt, .st, .runState] (t.endStep i)) ∧
    (∀ t : State, t.halted = true → t.endStep i = t)

/-- Fetch reads the big-endian word at PC or reports the address that is out of range. Rests on
spec/40_step_cycle.md, the rule on the fetch; spec/20_memory.md sections 2 and 3. At PC up to
0xFFE, odd or even, the fetch gives MEM[PC] * 256 + MEM[PC+1]; at PC = 4095 it gives
OutOfBounds(4096), at PC of 4096 or more OutOfBounds(PC), and the step then latches exactly that.
The fetch is a function to a word: it changes nothing. Which address is reported is the spec's
decision D4 (log entry 18), and that an odd PC fetches is D34 (log entry 24). -/
def Obligations.FetchReadsTheWordAtPc : Prop :=
  ∀ s : State,
    (s.pc.toNat ≤ 0xFFE → ∃ w, s.fetchWord = .ok w ∧
      w.toNat = (s.mem.peek s.pc.toNat).toNat * 256 + (s.mem.peek (s.pc.toNat + 1)).toNat) ∧
    (s.pc.toNat = 4095 → s.fetchWord = .error { code := .outOfBounds, info := 4096 } ∧
      (s.halted = false → ∃ t, step s = .next t ∧
        t.fault = { code := .outOfBounds, info := 4096 })) ∧
    (4096 ≤ s.pc.toNat → s.fetchWord = .error { code := .outOfBounds, info := s.pc } ∧
      (s.halted = false → ∃ t, step s = .next t ∧
        t.fault = { code := .outOfBounds, info := s.pc }))

/-- A fetched word that matches no row latches UnknownOpcode with the word itself. Rests on
spec/60_exceptions.md section 1, UnknownOpcode and the table of codes. Where the fetch gives a
word that selects no row of the opcode map, the step latches code 4 with the word as info; the
word 0x0000 selects no row. The number 4 is the spec's decision D2 (log entry 13). -/
def Obligations.UnknownWordLatchesItself : Prop :=
  (∀ (s : State) (w : Word), s.halted = false → s.fetchWord = .ok w →
      (∀ r ∈ opcodeMap, r.selects w = false) →
      ∃ t, step s = .next t ∧ t.fault = { code := .unknownOpcode, info := w } ∧
        t.faultCode = 4 ∧ t.faultInfo = w) ∧
    (∀ r ∈ opcodeMap, r.selects 0 = false)

/-- Once the latch is set no number of steps changes it or anything else; reset clears it. Rests on
spec/60_exceptions.md section 2, the sticky latch; spec/40_step_cycle.md, the rule on a halted
machine (no output pulse). From a halted state any number of steps answers a state that agrees
with it in everything but the strobe, which is down after a step; and every state that a reset
with load leaves is not halted. The sticky latch is the spec's decision D2 (log entry 13). The
strobe is no register of the spec: the model holds the pulse of the last step, and a halted step,
which pulses nothing, lowers it (log entry 22). -/
def Obligations.HaltedMachineStaysHalted : Prop :=
  (∀ (s : State) (n : Nat), s.halted = true →
      ∃ t, core.run n s = .next t ∧ s.sameBut [.strobe] t ∧ t.halted = true ∧
        (0 < n → t.strobe = false)) ∧
    (∀ (l : Launch) (s : State), State.load l = .ok s → s.halted = false)

/-- The machine never gets stuck: every step from every state answers a next state. Rests on
spec/60_exceptions.md section 2; spec/40_step_cycle.md, halted and no terminal state. Every
instruction in every state, and every step from every state, answers a next state: faults are
taken by writing the latch (log entry 1), and a halted machine still answers. -/
def Obligations.EveryStepAnswersANextState : Prop :=
  (∀ (i : Instr) (s : State), ∃ t, exec i s = .next t) ∧ ∀ s : State, ∃ t, step s = .next t

/-- Both timers lose one per step that does not fault and stop at zero. Rests on
spec/40_step_cycle.md, the timer decrement. After a step that does not fault, DT and ST are what
the instruction left, less one, floor zero; and but for SetDelay the instruction leaves DT as it
was, but for SetSound ST. One tick per step is the spec's decision D26 (log entry 26). -/
def Obligations.TimersTickOncePerStep : Prop :=
  ∀ (s t : State) (i : Instr), s.halted = false → s.fetchInstr = .ok i → step s = .next t →
    t.halted = false →
    (∃ u, exec i s.beginStep = .next u ∧ t.dt.toNat = u.dt.toNat - 1 ∧
      t.st.toNat = u.st.toNat - 1) ∧
    ((∀ x, i ≠ .setDelay x) → t.dt.toNat = s.dt.toNat - 1) ∧
    ((∀ x, i ≠ .setSound x) → t.st.toNat = s.st.toNat - 1)

/-- After N steps with no SetDelay the delay timer is max(0, initial - N). Rests on
spec/40_step_cycle.md, the timer decrement; spec/95_test_vectors.md part 1, S-8. Along every run
of n steps, from any state, in which no step faults and no step executes SetDelay, DT at the end
is DT at the start less n, floor zero. One tick per step is the spec's decision D26 (log entry
26). -/
def Obligations.DelayTimerDecaysOverARun : Prop :=
  ∀ (f : Nat → State) (n : Nat), SafeRun f n →
    (∀ j, j < n → ∀ x, (f j).fetchInstr ≠ .ok (.setDelay x)) →
    (f n).dt.toNat = (f 0).dt.toNat - n

/-- RUNSTATE says whether the step was a WaitKey that found no key. Formalises R127. After a step that
does not fault, RUNSTATE is WaitingForKey where the instruction was a WaitKey and the key vector
sampled for the step is 0, and Running in every other case. -/
def Obligations.RunStateAfterAStep : Prop :=
  ∀ (s t : State) (i : Instr), s.halted = false → s.fetchInstr = .ok i → step s = .next t →
    t.halted = false →
    (((∃ x, i = .waitKey x) ∧ s.nextInput.keys = 0) → t.runState = .waitingForKey) ∧
    (¬ ((∃ x, i = .waitKey x) ∧ s.nextInput.keys = 0) → t.runState = .running)

/-- RUNSTATE influences no step: two states that differ in it alone step to the same state. Rests on
spec/10_state.md section 4, RUNSTATE. From any state and from the same state with any other
RUNSTATE, a step answers: where the step from the first does not fault, the very same next state;
where it faults, a state with the same latch, code and info, and the same strobe; and where the
machine is halted already, the same state but for RUNSTATE. What else a fault leaves is a free
value of the whole state (log entry 2), so nothing is said of it. -/
def Obligations.RunStateInfluencesNoStep : Prop :=
  ∀ (s t : State) (r : RunState), step s = .next t →
    ∃ u, step { s with runState := r } = .next u ∧
      u.fault = t.fault ∧ u.strobe = t.strobe ∧ (t.halted = false → u = t) ∧
      (s.halted = true → u = { t with runState := r })

/-- The strobe is up exactly after a DrawSprite step that did not fault, and audio follows the
decremented ST. Rests on spec/40_step_cycle.md, the rule on the outputs of a step;
spec/44_video.md section 3, frame strobe; spec/60_exceptions.md section 5, audio. After a step of
a machine that is not halted the strobe is up iff the step fetched a DrawSprite and did not fault;
and where it did not fault, audio_on is whether the sound timer the instruction left, less one,
floor zero, is nonzero. When the strobe is up is the spec's decision D25 (log entry 22), and that
audio follows the decremented timer is D37 (log entry 29). -/
def Obligations.StrobeAndAudioAfterAStep : Prop :=
  ∀ s t : State, s.halted = false → step s = .next t →
    (t.strobe = true ↔ t.halted = false ∧ ∃ x y n, s.fetchInstr = .ok (.drawSprite x y n)) ∧
    (t.halted = false → ∃ i u, s.fetchInstr = .ok i ∧ exec i s.beginStep = .next u ∧
      t.audioOn = decide (u.st.toNat - 1 ≠ 0))

/-- The exported frame is the framebuffer row by row: pixel (r, c) at index r * 64 + c. Rests on
spec/10_state.md section 5; spec/44_video.md section 1. The output fb has 2048 pixels and its
entry r * 64 + c is FB[r][c]. -/
def Obligations.FrameIsRowMajor : Prop :=
  ∀ s : State, s.frame.length = 2048 ∧
    ∀ r c, r < 32 → c < 64 → s.frame[r * 64 + c]? = some (s.fb.pixel r c)

/-- Reset leaves every register, timer, output, pixel and stack entry at the value the spec names.
Rests on spec/10_state.md section 6. After reset: all V, I, DT, ST and SP are 0, PC is 0x200,
RUNSTATE Running, no fault, the outputs down. The stack entries and the pixels are 0 by the spec's
own decisions D22 and D21, the latch by D2 (log entries 10, 11, 13); the gap 0x050..0x1FF reads
zero. -/
def Obligations.ResetLeavesTheNamedValues : Prop :=
  (∀ r, State.reset.reg r = 0) ∧ State.reset.i = 0 ∧ State.reset.pc = 0x200 ∧
    State.reset.dt = 0 ∧ State.reset.st = 0 ∧ State.reset.sp = 0 ∧
    State.reset.runState = .running ∧ State.reset.fault = { code := .none, info := 0 } ∧
    State.reset.strobe = false ∧ State.reset.audioOn = false ∧ State.reset.faultCode = 0 ∧
    (∀ (j : Nat), j < 16 → State.reset.stack[j]? = some 0) ∧
    (∀ r c, State.reset.fb.pixel r c = false) ∧
    (∀ a, 0x50 ≤ a → a < 0x200 → State.reset.mem.peek a = 0)

/-- Reset with load puts the font, the zero gap, the program and the tail where the image says, or
refuses. Rests on spec/70_reset_and_hazards.md section 1; spec/20_memory.md section 4. A program
of up to 3584 bytes is loaded: 0x000..0x04F reads the font, 0x050..0x1FF zero, 0x200 + k the
program's byte k, and after it the tail (0 where the launch names none, log entry 9); everything
else is as after reset, with the launch's parameters and its schedule of inputs (log entries 3 to
7). A longer program is refused as ProgramTooLarge and there is no machine to run. The length
limit and the error's name are log entry 31. -/
def Obligations.LoadImageIsTheLaunchedProgram : Prop :=
  ∀ l : Launch,
    (l.program.length ≤ 3584 → ∃ s, State.load l = .ok s ∧
      (∀ a, a < 0x50 → l.font.toList[a]? = some (s.mem.peek a)) ∧
      (∀ a, 0x50 ≤ a → a < 0x200 → s.mem.peek a = 0) ∧
      (∀ k, k < l.program.length → l.program[k]? = some (s.mem.peek (0x200 + k))) ∧
      (∀ k, 0x200 + l.program.length + k < 4096 →
        s.mem.peek (0x200 + l.program.length + k) = (l.tail[k]?).getD 0) ∧
      State.reset.sameBut [.mem, .inputs, .params] s ∧ s.params = l.params ∧
      s.inputs = l.inputs) ∧
    (3584 < l.program.length → State.load l = .error (.programTooLarge l.program.length))

/-- The invariant holds at reset, whatever program is loaded. Rests on spec/10_state.md section 6;
spec/70_reset_and_hazards.md section 1. State.reset and every state that a load answers has memory
in canonical form, a legal latch, and PC and the live return addresses in range. -/
def Obligations.InvariantHoldsAfterReset : Prop :=
  State.reset.Inv ∧ ∀ (l : Launch) (s : State), State.load l = .ok s → s.Inv

/-- Every step keeps the invariant: canonical memory, a legal latch, PC and return addresses in range.
Rests on spec/10_state.md sections 3 and 4; spec/41_control_flow.md; spec/60_exceptions.md
sections 1 and 2. From every state that meets the invariant, a step answers a state that meets it:
memory stays in canonical form; FAULT.info is 0, an address of 4096 or more, or an unknown word,
as the code says; and while the machine runs PC is at most 0x10FE and every live return address at
most 0x1000. The ranges rest on the spec's decisions D31 and D15 (log entries 20, 28), the info
values on D4 and D2 (log entries 18, 13). -/
def Obligations.EveryStepKeepsTheInvariant : Prop :=
  ∀ s t : State, s.Inv → step s = .next t → t.Inv

/-- No step changes the build-time parameters. Rests on spec/00_scope.md section 3; spec/10_state.md
section 4. Whatever a step does, faults included, SHIFT_SRC and SETSOUND_GUARD are what they were. -/
def Obligations.ParametersNeverChange : Prop :=
  ∀ s t : State, step s = .next t → t.params = s.params

/-- The framebuffer is changed only by ClearScreen and DrawSprite. Rests on spec/44_video.md section
1. A step that does not fault and does not execute ClearScreen or DrawSprite leaves every pixel as
it was. -/
def Obligations.OnlyVideoInstructionsWriteTheScreen : Prop :=
  ∀ s t : State, step s = .next t → t.halted = false →
    s.fetchInstr ≠ .ok .clearScreen → (∀ x y n, s.fetchInstr ≠ .ok (.drawSprite x y n)) →
    t.fb = s.fb

/-- Memory is changed only by StoreBCD and StoreRegs, the stack only by Call, its depth only by Call
and Return. Rests on spec/20_memory.md section 1; spec/10_state.md section 4, SP and STACK. A step
that does not fault and executes neither StoreBCD nor StoreRegs leaves every byte of memory as it
was; one that does not execute Call leaves every stack entry, and one that executes neither Call
nor Return leaves SP. That a Return leaves the entry it pops in place is the spec's decision D22
(log entry 11), and no program can see it. -/
def Obligations.OnlyStoresWriteMemory : Prop :=
  ∀ s t : State, step s = .next t → t.halted = false →
    ((∀ x, s.fetchInstr ≠ .ok (.storeBCD x)) → (∀ x, s.fetchInstr ≠ .ok (.storeRegs x)) →
      ∀ a, t.mem.peek a = s.mem.peek a) ∧
    ((∀ nnn, s.fetchInstr ≠ .ok (.call nnn)) → t.stack = s.stack) ∧
    ((∀ nnn, s.fetchInstr ≠ .ok (.call nnn)) → s.fetchInstr ≠ .ok .ret → t.sp = s.sp)

/-- An instruction writes no V register but those the table of registers written names. Rests on
spec/42_register_alu.md sections 3 and 5; spec/10_state.md section 2; spec/43_index_memory.md
section 1. For every instruction, where it does not fault, every V register that the table does
not name for it, VF among them, is unchanged; and I is unchanged but for SetIndex, AddIndex and
FontAddr. That Or, And and Xor leave VF alone is the spec's decision D11 (log entry 15), and that
StoreRegs and LoadRegs leave I alone is D18 (log entry 20). -/
def Obligations.RegistersWrittenAreThoseOfTheTable : Prop :=
  ∀ (i : Instr) (s t : State), exec i s = .next t → t.halted = false →
    (∀ r, r ∉ regsWritten i → t.reg r = s.reg r) ∧
    ((∀ nnn, i ≠ .setIndex nnn) → (∀ x, i ≠ .addIndex x) → (∀ x, i ≠ .fontAddr x) → t.i = s.i)

/-- Every instruction that does not fault leaves PC where the table of next PC says. Rests on
spec/40_step_cycle.md, the table of next PC. For every instruction and state, where it does not
fault, PC is the table's value: the target, the popped address, PC + 4 or PC + 2 by the condition
of a skip, PC itself for a WaitKey with no key, else PC + 2. The key skips read the low four bits
of Vx by the spec's decision D14 (log entry 19), JumpV0 is not masked by D31 and the additions are
modulo 2^16 by D30 (log entry 20), SkipNeqReg ignores its digit by D16 (log entry 16), and Return
adds nothing by D15 (log entry 28). -/
def Obligations.NextPcIsThatOfTheTable : Prop :=
  ∀ (i : Instr) (s t : State), exec i s = .next t → t.halted = false → t.pc = nextPc i s

/-- Return sets PC to the most recent return address and takes it off the stack. Rests on
spec/41_control_flow.md, Return; spec/10_state.md section 4, SP and STACK. With at least one
address held, Return completes: PC is STACK[SP-1] with nothing added, SP one less, the entry stays
in STACK, and nothing else changes. That the entry stays is the spec's decision D22 (log entry
11), and that nothing is added is D15 (log entry 28). -/
def Obligations.ReturnPopsIntoPc : Prop :=
  RowDecodes 0xFFFF 0x00EE (fun _ => .ret) ∧
    ∀ s : State, 0 < s.sp.val → Completes .ret s fun t =>
      s.stack[s.sp.val - 1]? = some t.pc ∧ t.sp.val = s.sp.val - 1 ∧ s.sameBut [.pc, .sp] t

/-- Call pushes PC + 2 and goes to nnn. Rests on spec/41_control_flow.md, Call; spec/10_state.md
section 4, SP and STACK. With fewer than 16 addresses held, Call completes: STACK[SP] is PC + 2
(the return address, by the spec's decision D15, log entry 28), every other entry unchanged, SP
one more, PC is nnn, and nothing else changes. -/
def Obligations.CallPushesTheReturnAddress : Prop :=
  RowDecodes 0xF000 0x2000 (fun w => .call (fieldNNN w)) ∧
    ∀ (s : State) (nnn : Addr), s.sp.val < 16 → Completes (.call nnn) s fun t =>
      t.stack[s.sp.val]? = some (s.pc + 2) ∧
      (∀ j : Nat, j ≠ s.sp.val → t.stack[j]? = s.stack[j]?) ∧
      t.sp.val = s.sp.val + 1 ∧ t.pc.toNat = nnn.toNat ∧ s.sameBut [.stack, .sp, .pc] t

/-- The 17th push latches StackOverflow and a pop of the empty stack StackUnderflow. Rests on
spec/60_exceptions.md section 1, StackOverflow, StackUnderflow and the table of codes;
spec/10_state.md section 4, SP and STACK. Call with SP = 16 latches code 2 with info 0, and with
SP below 16 it does not fault; Return with SP = 0 latches code 3 with info 0, and with SP above 0
it does not fault. The numbers 2 and 3 and the info 0 are the spec's decision D2 (log entry 13). -/
def Obligations.StackLimitsFault : Prop :=
  ∀ (s : State) (nnn : Addr), s.halted = false →
    (s.sp.val = 16 → Completes (.call nnn) s fun t =>
      t.fault = { code := .stackOverflow, info := 0 } ∧ t.faultCode = 2) ∧
    (s.sp.val < 16 → Completes (.call nnn) s fun t => t.halted = false) ∧
    (s.sp.val = 0 → Completes .ret s fun t =>
      t.fault = { code := .stackUnderflow, info := 0 } ∧ t.faultCode = 3) ∧
    (0 < s.sp.val → Completes .ret s fun t => t.halted = false)

/-- A Return that finds the stack a Call left resumes at the instruction after the Call. Rests on
spec/41_control_flow.md, Call and Return; spec/95_test_vectors.md part 1, S-5. Whatever else
happened between, if SP and STACK are as Call left them, Return completes with PC at the Call's
address plus 2 and SP as it was before the Call. What lies on the stack between them is the spec's
decision D15 (log entry 28). -/
def Obligations.CallThenReturnResumesAfterTheCall : Prop :=
  ∀ (s t u : State) (nnn : Addr), s.sp.val < 16 → exec (.call nnn) s = .next t →
    u.sp = t.sp → u.stack = t.stack →
    Completes .ret u fun v => v.pc = s.pc + 2 ∧ v.sp = s.sp ∧ v.fault = u.fault

/-- Jump sets PC to nnn and changes nothing else. Rests on spec/41_control_flow.md, Jump;
spec/20_memory.md section 2. Every word 1nnn is Jump nnn; it completes in every state with PC
exactly nnn, whatever nnn is, and all else unchanged; with nnn = 0xFFF the next fetch is
OutOfBounds(4096), and a Jump to its own address changes nothing. That the fetch at 0xFFF reports
4096 is the spec's decision D4 (log entry 18). -/
def Obligations.JumpGoesToTheTarget : Prop :=
  RowDecodes 0xF000 0x1000 (fun w => .jump (fieldNNN w)) ∧
    ∀ (s : State) (nnn : Addr), Completes (.jump nnn) s fun t =>
      t.pc.toNat = nnn.toNat ∧ s.sameBut [.pc] t ∧
      (nnn = 0xFFF → t.fetchWord = .error { code := .outOfBounds, info := 4096 }) ∧
      (s.pc.toNat = nnn.toNat → s.sameBut [] t)

/-- JumpV0 sets PC to nnn + V0, not reduced to 12 bits. Rests on spec/41_control_flow.md, JumpV0.
JumpV0 completes in every state with PC the mathematical sum of nnn and V0 (not masked, by the
spec's decision D31, log entry 20), and changes nothing else. -/
def Obligations.JumpV0AddsTheRegister : Prop :=
  RowDecodes 0xF000 0xB000 (fun w => .jumpV0 (fieldNNN w)) ∧
    ∀ (s : State) (nnn : Addr), Completes (.jumpV0 nnn) s fun t =>
      t.pc.toNat = nnn.toNat + (s.reg 0).toNat ∧ s.sameBut [.pc] t

/-- SkipEqImm and SkipNeqImm compare Vx with kk and write only PC. Formalises R143, R144. Both
complete in every state: PC + 4 where the condition holds, else PC + 2, no register written and
nothing else changed. -/
def Obligations.SkipsOnAnImmediate : Prop :=
  RowDecodes 0xF000 0x3000 (fun w => .skipEqImm (fieldX w) (fieldKK w)) ∧
    RowDecodes 0xF000 0x4000 (fun w => .skipNeqImm (fieldX w) (fieldKK w)) ∧
    ∀ (s : State) (x : Reg) (kk : Byte),
      (Completes (.skipEqImm x kk) s fun t =>
        t.pc = (if s.reg x = kk then s.pc + 4 else s.pc + 2) ∧ s.sameBut [.pc] t) ∧
      (Completes (.skipNeqImm x kk) s fun t =>
        t.pc = (if s.reg x ≠ kk then s.pc + 4 else s.pc + 2) ∧ s.sameBut [.pc] t)

/-- SkipEqReg compares Vx with Vy and writes only PC. Formalises R145. Every word 5xy0 is SkipEqReg,
and 5xyN with another N decodes to nothing. It completes in every state: PC + 4 where Vx = Vy,
always so where x = y, else PC + 2, and nothing else changed. -/
def Obligations.SkipEqRegComparesRegisters : Prop :=
  RowDecodes 0xF00F 0x5000 (fun w => .skipEqReg (fieldX w) (fieldY w)) ∧
    (∀ w : Word, w &&& 0xF000 = 0x5000 → fieldN w ≠ 0 → decode w = .error (.unknownOpcode w)) ∧
    ∀ (s : State) (x y : Reg), Completes (.skipEqReg x y) s fun t =>
      t.pc = (if s.reg x = s.reg y then s.pc + 4 else s.pc + 2) ∧
      (x = y → t.pc = s.pc + 4) ∧ s.sameBut [.pc] t

/-- SkipNeqReg compares Vx with Vy, whatever the low digit of its word. Rests on
spec/41_control_flow.md, SkipNeqReg; spec/30_encoding.md section 2. Every word 9xyN decodes to
SkipNeqReg. It completes in every state: PC + 4 where Vx and Vy differ, else PC + 2, never a skip
where x = y, nothing else changed, and the digit n changes nothing (the spec's decision D16, log
entry 16). -/
def Obligations.SkipNeqRegIgnoresItsLowDigit : Prop :=
  RowDecodes 0xF000 0x9000 (fun w => .skipNeqReg (fieldX w) (fieldY w) (fieldN w)) ∧
    ∀ (s : State) (x y : Reg) (n : Nibble),
      (Completes (.skipNeqReg x y n) s fun t =>
        t.pc = (if s.reg x ≠ s.reg y then s.pc + 4 else s.pc + 2) ∧
        (x = y → t.pc = s.pc + 2) ∧ s.sameBut [.pc] t) ∧
      exec (.skipNeqReg x y n) s = exec (.skipNeqReg x y 0) s

/-- SetImm writes kk to Vx and advances PC. Formalises R161. Every word 6xkk is SetImm. It completes
in every state: Vx is kk, VF too where x = F, every other register unchanged, PC + 2, nothing else
changed. -/
def Obligations.SetImmWritesTheImmediate : Prop :=
  RowDecodes 0xF000 0x6000 (fun w => .setImm (fieldX w) (fieldKK w)) ∧
    ∀ (s : State) (x : Reg) (kk : Byte), Completes (.setImm x kk) s fun t =>
      t.reg x = kk ∧ s.sameRegsBut [x] t ∧ t.pc = s.pc + 2 ∧ s.sameBut [.v, .pc] t

/-- AddImm adds kk to Vx modulo 256 and writes no flag. Formalises R162. Every word 7xkk is AddImm. It
completes in every state: Vx is (Vx + kk) mod 256, every other register (VF where x is not F)
unchanged, PC + 2, nothing else changed. -/
def Obligations.AddImmWrapsWithoutAFlag : Prop :=
  RowDecodes 0xF000 0x7000 (fun w => .addImm (fieldX w) (fieldKK w)) ∧
    ∀ (s : State) (x : Reg) (kk : Byte), Completes (.addImm x kk) s fun t =>
      (t.reg x).toNat = ((s.reg x).toNat + kk.toNat) % 256 ∧ s.sameRegsBut [x] t ∧
      t.pc = s.pc + 2 ∧ s.sameBut [.v, .pc] t

/-- Copy, Or, And and Xor write their result to Vx and leave VF alone. Rests on
spec/42_register_alu.md section 3. Each completes in every state with Vx the value of Vy, or the
bitwise or, and, xor of Vx and Vy, bit by bit; every other register, VF where x is not F, is
unchanged (roles and the untouched flag are the spec's decisions D6 and D11, log entries 14, 15),
PC + 2, nothing else changed. -/
def Obligations.CopyAndLogicWriteVxAlone : Prop :=
  ∀ (s : State) (x y : Reg),
    (Completes (.copy x y) s fun t =>
      t.reg x = s.reg y ∧ s.sameRegsBut [x] t ∧ t.pc = s.pc + 2 ∧ s.sameBut [.v, .pc] t) ∧
    (Completes (.or x y) s fun t =>
      (∀ j, (t.reg x).getLsbD j = ((s.reg x).getLsbD j || (s.reg y).getLsbD j)) ∧
      s.sameRegsBut [x] t ∧ t.pc = s.pc + 2 ∧ s.sameBut [.v, .pc] t) ∧
    (Completes (.and x y) s fun t =>
      (∀ j, (t.reg x).getLsbD j = ((s.reg x).getLsbD j && (s.reg y).getLsbD j)) ∧
      s.sameRegsBut [x] t ∧ t.pc = s.pc + 2 ∧ s.sameBut [.v, .pc] t) ∧
    (Completes (.xor x y) s fun t =>
      (∀ j, (t.reg x).getLsbD j = ((s.reg x).getLsbD j ^^ (s.reg y).getLsbD j)) ∧
      s.sameRegsBut [x] t ∧ t.pc = s.pc + 2 ∧ s.sameBut [.v, .pc] t)

/-- AddReg writes the sum modulo 256 to Vx and then the carry to VF. Rests on spec/42_register_alu.md
section 3, AddReg. AddReg completes in every state: VF is 1 where the sum of the old Vx and Vy
exceeds 255, else 0, also where x = F (the flag is written last, the spec's decision D8, log entry
15); where x is not F, Vx is the sum mod 256; every other register unchanged, PC + 2, nothing else
changed. -/
def Obligations.AddRegSetsTheCarry : Prop :=
  ∀ (s : State) (x y : Reg), Completes (.addReg x y) s fun t =>
    t.reg VF = (if (s.reg x).toNat + (s.reg y).toNat > 255 then 1 else 0) ∧
    (x ≠ VF → (t.reg x).toNat = ((s.reg x).toNat + (s.reg y).toNat) % 256) ∧
    s.sameRegsBut [x, VF] t ∧ t.pc = s.pc + 2 ∧ s.sameBut [.v, .pc] t

/-- SubXY and SubYX write the wrapped difference to Vx and not-borrow to VF. Rests on
spec/42_register_alu.md sections 1 and 3, SubXY and SubYX. Both complete in every state: Vx is
minuend minus subtrahend mod 256 of the old values, also where x = F (the result is written last,
the spec's decisions D8 and D10, log entries 15, 17); where x is not F, VF is 1 where minuend is
at least subtrahend, else 0; every other register unchanged, PC + 2, nothing else changed. -/
def Obligations.SubtractionsWrapAndSetNotBorrow : Prop :=
  ∀ (s : State) (x y : Reg),
    (Completes (.subXY x y) s fun t =>
      (t.reg x).toNat = ((s.reg x).toNat + 256 - (s.reg y).toNat) % 256 ∧
      (x ≠ VF → t.reg VF = (if (s.reg x).toNat ≥ (s.reg y).toNat then 1 else 0)) ∧
      s.sameRegsBut [x, VF] t ∧ t.pc = s.pc + 2 ∧ s.sameBut [.v, .pc] t) ∧
    (Completes (.subYX x y) s fun t =>
      (t.reg x).toNat = ((s.reg y).toNat + 256 - (s.reg x).toNat) % 256 ∧
      (x ≠ VF → t.reg VF = (if (s.reg y).toNat ≥ (s.reg x).toNat then 1 else 0)) ∧
      s.sameRegsBut [x, VF] t ∧ t.pc = s.pc + 2 ∧ s.sameBut [.v, .pc] t)

/-- ShR and ShL shift their source register by one and put the bit shifted out in VF. Rests on
spec/42_register_alu.md section 3, ShR and ShL; spec/00_scope.md section 3. For both settings of
SHIFT_SRC (log entry 6), the source being Vx or Vy: both complete in every state with Vx the
source halved, or doubled mod 256, also where x = F; where x is not F, VF is bit 0, or bit 7, of
the source before the shift; every other register unchanged, PC + 2, nothing else changed. That
the flag is written first and the result last, so that the result stands at x = F, is the spec's
decision D8 (log entry 15). -/
def Obligations.ShiftsMoveOneBitIntoVf : Prop :=
  ∀ (s : State) (x y : Reg) (src : Byte),
    (s.params.shiftSrc = .x → src = s.reg x) → (s.params.shiftSrc = .y → src = s.reg y) →
    (Completes (.shR x y) s fun t =>
      (t.reg x).toNat = src.toNat / 2 ∧ (x ≠ VF → (t.reg VF).toNat = src.toNat % 2) ∧
      s.sameRegsBut [x, VF] t ∧ t.pc = s.pc + 2 ∧ s.sameBut [.v, .pc] t) ∧
    (Completes (.shL x y) s fun t =>
      (t.reg x).toNat = src.toNat * 2 % 256 ∧ (x ≠ VF → (t.reg VF).toNat = src.toNat / 128) ∧
      s.sameRegsBut [x, VF] t ∧ t.pc = s.pc + 2 ∧ s.sameBut [.v, .pc] t)

/-- Random writes the step's random byte, masked by kk, to Vx. Rests on spec/42_register_alu.md
section 4; spec/40_step_cycle.md, input sampling. Random completes in every state: Vx is RND & kk,
so no bit outside kk is set and kk = 0 gives 0; every other register unchanged, PC + 2, nothing
else changed. In a step RND is the host's byte or a free value (log entry 4). -/
def Obligations.RandomMasksTheDrawnByte : Prop :=
  RowDecodes 0xF000 0xC000 (fun w => .random (fieldX w) (fieldKK w)) ∧
    ∀ (s : State) (x : Reg) (kk : Byte), Completes (.random x kk) s fun t =>
      (∀ j, (t.reg x).getLsbD j = (s.rnd.getLsbD j && kk.getLsbD j)) ∧
      (kk = 0 → t.reg x = 0) ∧ s.sameRegsBut [x] t ∧ t.pc = s.pc + 2 ∧ s.sameBut [.v, .pc] t

/-- SetIndex writes nnn, zero-extended, to I. Formalises R190. Every word Annn is SetIndex. It
completes in every state: I is nnn, hence a valid memory address, PC + 2, nothing else changed. -/
def Obligations.SetIndexWritesTheAddress : Prop :=
  RowDecodes 0xF000 0xA000 (fun w => .setIndex (fieldNNN w)) ∧
    ∀ (s : State) (nnn : Addr), Completes (.setIndex nnn) s fun t =>
      t.i.toNat = nnn.toNat ∧ t.i.toNat < 4096 ∧ t.pc = s.pc + 2 ∧ s.sameBut [.i, .pc] t

/-- AddIndex adds Vx to I and flags a sum beyond 0xFFF; FontAddr points I at the glyph of Vx. Rests on
spec/43_index_memory.md section 2. AddIndex completes in every state: I is (I + Vx) mod 2^16, VF
is 1 where the mathematical sum exceeds 0xFFF, else 0, the old VF being the addend where x = F
(the unmasked sum is the spec's decision D17, log entry 20). FontAddr completes in every state: I
is 5 * Vx, for Vx up to 15 a glyph of five bytes inside 0x000..0x04F. PC + 2, nothing else
changed. That FontAddr uses the whole of Vx is D32 (log entry 20). -/
def Obligations.AddIndexAndFontAddrMoveI : Prop :=
  ∀ (s : State) (x : Reg),
    (Completes (.addIndex x) s fun t =>
      t.i.toNat = (s.i.toNat + (s.reg x).toNat) % 65536 ∧
      t.reg VF = (if s.i.toNat + (s.reg x).toNat > 0xFFF then 1 else 0) ∧
      s.sameRegsBut [VF] t ∧ t.pc = s.pc + 2 ∧ s.sameBut [.i, .v, .pc] t) ∧
    (Completes (.fontAddr x) s fun t =>
      t.i.toNat = 5 * (s.reg x).toNat ∧ ((s.reg x).toNat ≤ 15 → t.i.toNat + 4 < 0x50) ∧
      t.pc = s.pc + 2 ∧ s.sameBut [.i, .pc] t)

/-- StoreBCD stores the three decimal digits of Vx at I, I + 1 and I + 2. Rests on
spec/43_index_memory.md section 3, StoreBCD. Where I + 2 is in memory, StoreBCD completes: the
byte at I is the hundreds digit, at I + 1 the tens, at I + 2 the ones (most significant first, the
spec's decision D19, log entry 21); every byte outside those three reads as before, PC + 2,
nothing else changed, I included. -/
def Obligations.StoreBcdStoresThreeDigits : Prop :=
  RowDecodes 0xF0FF 0xF033 (fun w => .storeBCD (fieldX w)) ∧
    ∀ (s : State) (x : Reg), s.i.toNat + 2 < 4096 → Completes (.storeBCD x) s fun t =>
      (t.mem.peek s.i.toNat).toNat = (s.reg x).toNat / 100 ∧
      (t.mem.peek (s.i.toNat + 1)).toNat = (s.reg x).toNat / 10 % 10 ∧
      (t.mem.peek (s.i.toNat + 2)).toNat = (s.reg x).toNat % 10 ∧
      s.sameMemOutside s.i.toNat 3 t ∧ t.pc = s.pc + 2 ∧ s.sameBut [.mem, .pc] t

/-- StoreRegs stores V0 to Vx at I and up, or latches the first address out of range. Rests on
spec/43_index_memory.md section 1; spec/43_index_memory.md section 3, StoreRegs; spec/20_memory.md
section 2. Every word Fx55 is StoreRegs. Where I + x is in memory it completes: the byte at I + r
is Vr for every r up to x, every byte outside those x + 1 reads as before, PC + 2, nothing else
changed, I included. Where I + x is 4096 or more it latches OutOfBounds with I, where I is out of
range, else with 4096. That I is unchanged is the spec's decision D18 (log entry 20), and which
address is reported is D4 (log entry 18). -/
def Obligations.StoreRegsStoresTheBlock : Prop :=
  RowDecodes 0xF0FF 0xF055 (fun w => .storeRegs (fieldX w)) ∧
    ∀ (s : State) (x : Reg),
      (s.i.toNat + x.val < 4096 → Completes (.storeRegs x) s fun t =>
        (∀ r : Reg, r ≤ x → t.mem.peek (s.i.toNat + r.val) = s.reg r) ∧
        s.sameMemOutside s.i.toNat (x.val + 1) t ∧ t.pc = s.pc + 2 ∧ s.sameBut [.mem, .pc] t) ∧
      (4096 ≤ s.i.toNat + x.val → Completes (.storeRegs x) s fun t =>
        t.fault = { code := .outOfBounds, info := if 4096 ≤ s.i.toNat then s.i else 4096 })

/-- LoadRegs loads V0 to Vx from I and up, or latches the first address out of range. Rests on
spec/43_index_memory.md section 1; spec/43_index_memory.md section 3, LoadRegs; spec/20_memory.md
section 2. Every word Fx65 is LoadRegs. Where I + x is in memory it completes: Vr is the byte at I
+ r for every r up to x, VF as plain data where x = F, every register above Vx unchanged, PC + 2,
nothing else changed, I and memory included. Where I + x is 4096 or more it latches OutOfBounds
with I, where I is out of range, else with 4096. That I is unchanged is the spec's decision D18
(log entry 20), and which address is reported is D4 (log entry 18). -/
def Obligations.LoadRegsLoadsTheBlock : Prop :=
  RowDecodes 0xF0FF 0xF065 (fun w => .loadRegs (fieldX w)) ∧
    ∀ (s : State) (x : Reg),
      (s.i.toNat + x.val < 4096 → Completes (.loadRegs x) s fun t =>
        (∀ r : Reg, r ≤ x → t.reg r = s.mem.peek (s.i.toNat + r.val)) ∧
        (∀ r : Reg, x < r → t.reg r = s.reg r) ∧ t.pc = s.pc + 2 ∧ s.sameBut [.v, .pc] t) ∧
      (4096 ≤ s.i.toNat + x.val → Completes (.loadRegs x) s fun t =>
        t.fault = { code := .outOfBounds, info := if 4096 ≤ s.i.toNat then s.i else 4096 })

/-- Registers stored by StoreRegs are loaded back by LoadRegs, whatever happened to them between.
Rests on spec/43_index_memory.md section 3, StoreRegs and LoadRegs. If StoreRegs Vx completed from
s without leaving memory, then in any state with I as in s and the memory it left, LoadRegs Vx
completes with V0 to Vx as they were in s and the registers above as they are. -/
def Obligations.StoredRegistersLoadBack : Prop :=
  ∀ (s t u : State) (x : Reg), s.i.toNat + x.val < 4096 → exec (.storeRegs x) s = .next t →
    u.i = s.i → (∀ a, u.mem.peek a = t.mem.peek a) →
    Completes (.loadRegs x) u fun v =>
      (∀ r : Reg, r ≤ x → v.reg r = s.reg r) ∧ (∀ r : Reg, x < r → v.reg r = u.reg r) ∧
      v.fault = u.fault

/-- A store by StoreRegs or StoreBCD is seen by every later fetch: self-modifying code works. Rests on
spec/20_memory.md section 5. After a StoreRegs Vx or a StoreBCD Vx that does not leave memory, a
fetch at any address that has a word, from any state whose memory reads as the store left it,
gives the big-endian word of the two bytes there, each being the stored byte where its address
lies in the block at I (also where only one of the two does), else the byte memory held before.
The stored bytes are V0 to Vx, or the three decimal digits of Vx, hundreds first (the spec's
decision D19, log entry 21). -/
def Obligations.StoresAreSeenByTheNextFetch : Prop :=
  ∀ (s t u : State) (i : Instr) (bytes : List Byte),
    ((∃ x : Reg, i = .storeRegs x ∧ bytes.length = x.val + 1 ∧
        ∀ r : Reg, r ≤ x → bytes[r.val]? = some (s.reg r)) ∨
      (∃ x : Reg, i = .storeBCD x ∧ bytes.map BitVec.toNat =
        [(s.reg x).toNat / 100, (s.reg x).toNat / 10 % 10, (s.reg x).toNat % 10])) →
    s.i.toNat + bytes.length ≤ 4096 → exec i s = .next t →
    (∀ a, u.mem.peek a = t.mem.peek a) → u.pc.toNat + 1 < 4096 →
    ∃ w, u.fetchWord = .ok w ∧
      w.toNat = (s.byteAfterStore bytes u.pc.toNat).toNat * 256 +
        (s.byteAfterStore bytes (u.pc.toNat + 1)).toNat

/-- A block transfer that leaves memory latches OutOfBounds, and one that does not leaves the latch
alone. Rests on spec/60_exceptions.md section 1; spec/20_memory.md section 2. For DrawSprite,
StoreBCD, StoreRegs and LoadRegs, whose transfers are of n, 3, x + 1 and x + 1 bytes at I: where a
byte of the transfer is out of range the instruction latches code 1 with I if that is out of
range, else 4096; where none is, the latch is as it was. A DrawSprite of no rows never faults. The
number 1 is the spec's decision D2 (log entry 13), the reported address D4 (log entry 18), and the
reads of clipped rows and of no rows D24 (log entry 22). -/
def Obligations.DataAccessOutOfRangeLatchesTheAddress : Prop :=
  ∀ (s : State) (i : Instr) (len : Nat),
    ((∃ x y n, i = .drawSprite x y n ∧ len = n.toNat) ∨ (∃ x, i = .storeBCD x ∧ len = 3) ∨
      (∃ x, i = .storeRegs x ∧ len = x.val + 1) ∨ (∃ x, i = .loadRegs x ∧ len = x.val + 1)) →
    ((0 < len ∧ 4096 < s.i.toNat + len) → Completes i s fun t =>
      t.fault = { code := .outOfBounds, info := if 4096 ≤ s.i.toNat then s.i else 4096 } ∧
      t.faultCode = 1) ∧
    (¬ (0 < len ∧ 4096 < s.i.toNat + len) → Completes i s fun t => t.fault = s.fault)

/-- ClearScreen sets every pixel to 0 and writes neither VF nor the strobe. Rests on spec/44_video.md
section 2, ClearScreen; spec/44_video.md section 3, frame strobe. The word 00E0 is ClearScreen. It
completes in every state: all 32 x 64 pixels are 0, PC + 2, and nothing else changes, VF and the
strobe included. That it leaves the strobe alone is the spec's decision D25 (log entry 22). -/
def Obligations.ClearScreenBlanksEveryPixel : Prop :=
  RowDecodes 0xFFFF 0x00E0 (fun _ => .clearScreen) ∧
    ∀ s : State, Completes .clearScreen s fun t =>
      (∀ r c, r < 32 → c < 64 → t.fb.pixel r c = false) ∧ t.pc = s.pc + 2 ∧
      s.sameBut [.fb, .pc] t

/-- DrawSprite XORs every covered pixel, sets VF by collision, raises the strobe and changes nothing
else. Rests on spec/44_video.md sections 2 and 3. Where the n bytes at I are in memory (or n is
0), DrawSprite completes: every pixel is XORed with the sprite bit that covers it at column Vx,
row Vy, one byte a row, top row first, bit 7 of a byte its leftmost pixel and bit 0 its rightmost;
neither coordinate is reduced, so what falls outside is skipped (the spec's decision D24, log
entry 22); VF is 1 iff a lit pixel was covered by a 1 bit, else 0; the strobe is up (D25); every
register but VF and all else is unchanged, PC + 2. -/
def Obligations.DrawSpriteXorsAndReportsCollision : Prop :=
  RowDecodes 0xF000 0xD000 (fun w => .drawSprite (fieldX w) (fieldY w) (fieldN w)) ∧
    ∀ (s : State) (x y : Reg) (n : Nibble) (bytes : List Byte),
      (n.toNat = 0 ∨ s.i.toNat + n.toNat ≤ 4096) →
      bytes = (List.range n.toNat).map (fun j => s.mem.peek (s.i.toNat + j)) →
      Completes (.drawSprite x y n) s fun t =>
        (∀ r c, r < 32 → c < 64 → t.fb.pixel r c =
          (s.fb.pixel r c ^^ spriteAt bytes (s.reg x).toNat (s.reg y).toNat r c)) ∧
        (t.reg VF = 1 ↔ ∃ r c, r < 32 ∧ c < 64 ∧ s.fb.pixel r c = true ∧
          spriteAt bytes (s.reg x).toNat (s.reg y).toNat r c = true) ∧
        (t.reg VF = 0 ∨ t.reg VF = 1) ∧ s.sameRegsBut [VF] t ∧ t.strobe = true ∧
        t.pc = s.pc + 2 ∧ s.sameBut [.v, .fb, .strobe, .pc] t

/-- Drawing the same sprite twice at the same place restores the framebuffer and reports what it
erased. Rests on spec/44_video.md section 3, sprite format and XOR; spec/95_test_vectors.md part
1, S-3. Where neither coordinate register is VF and the sprite's bytes are in memory: after
DrawSprite twice the framebuffer is what it was; and where the first draw hit nothing, the second
reports a collision iff the first changed the screen. -/
def Obligations.DrawingTwiceRestoresTheScreen : Prop :=
  ∀ (s t u : State) (x y : Reg) (n : Nibble), x ≠ VF → y ≠ VF →
    (n.toNat = 0 ∨ s.i.toNat + n.toNat ≤ 4096) →
    exec (.drawSprite x y n) s = .next t → exec (.drawSprite x y n) t = .next u →
    u.fb = s.fb ∧ (t.reg VF = 0 → (u.reg VF = 1 ↔ t.fb ≠ s.fb))

/-- A sprite that starts at column 64 or row 32 or beyond draws nothing: there is no wraparound. Rests
on spec/44_video.md section 3, clipping. With Vx at least 64 or Vy at least 32 and the bytes in
memory, DrawSprite completes with every pixel as it was, VF 0 and the strobe up (coordinates are
not reduced, the spec's decision D24, log entry 22). -/
def Obligations.SpritesOffTheScreenDrawNothing : Prop :=
  ∀ (s : State) (x y : Reg) (n : Nibble),
    (64 ≤ (s.reg x).toNat ∨ 32 ≤ (s.reg y).toNat) →
    (n.toNat = 0 ∨ s.i.toNat + n.toNat ≤ 4096) →
    Completes (.drawSprite x y n) s fun t =>
      t.fb = s.fb ∧ t.reg VF = 0 ∧ t.strobe = true ∧ t.fault = s.fault

/-- SkipKeyDown and SkipKeyUp test the key named by the low four bits of Vx. Rests on
spec/45_keyboard_timers.md section 1. Both complete in every state: PC + 4 where bit (Vx mod 16)
of the sampled key vector is 1, or 0, else PC + 2, and nothing else changed (the low four bits are
the spec's decision D14, log entry 19). -/
def Obligations.KeySkipsTestOneKey : Prop :=
  RowDecodes 0xF0FF 0xE09E (fun w => .skipKeyDown (fieldX w)) ∧
    RowDecodes 0xF0FF 0xE0A1 (fun w => .skipKeyUp (fieldX w)) ∧
    ∀ (s : State) (x : Reg),
      (Completes (.skipKeyDown x) s fun t =>
        t.pc = (if s.k.getLsbD ((s.reg x).toNat % 16) = true then s.pc + 4 else s.pc + 2) ∧
        s.sameBut [.pc] t) ∧
      (Completes (.skipKeyUp x) s fun t =>
        t.pc = (if s.k.getLsbD ((s.reg x).toNat % 16) = false then s.pc + 4 else s.pc + 2) ∧
        s.sameBut [.pc] t)

/-- WaitKey waits in place with no key pressed, else latches the lowest pressed key. Rests on
spec/45_keyboard_timers.md section 1, WaitKey. With no key pressed WaitKey completes and changes
nothing, PC included. With key id pressed and none below it, it completes: Vx is id, every other
register unchanged, PC + 2, nothing else changed (lowest-first is the spec's decision D13, log
entry 27). -/
def Obligations.WaitKeyLatchesTheLowestKey : Prop :=
  RowDecodes 0xF0FF 0xF00A (fun w => .waitKey (fieldX w)) ∧
    ∀ (s : State) (x : Reg),
      (s.k = 0 → Completes (.waitKey x) s fun t => s.sameBut [] t) ∧
      (∀ id, id < 16 → s.k.getLsbD id = true → (∀ j, j < id → s.k.getLsbD j = false) →
        Completes (.waitKey x) s fun t =>
          (t.reg x).toNat = id ∧ s.sameRegsBut [x] t ∧ t.pc = s.pc + 2 ∧
          s.sameBut [.v, .pc] t)

/-- GetDelay copies DT to Vx before the step's own decrement. Formalises R233. Every word Fx07 is
GetDelay. It completes in every state: Vx is DT, every other register unchanged, PC + 2, nothing
else changed; and a whole step that executes it leaves Vx the DT before the step and DT one less,
floor zero. -/
def Obligations.GetDelayReadsBeforeTheTick : Prop :=
  RowDecodes 0xF0FF 0xF007 (fun w => .getDelay (fieldX w)) ∧
    ∀ (s : State) (x : Reg),
      (Completes (.getDelay x) s fun t =>
        t.reg x = s.dt ∧ s.sameRegsBut [x] t ∧ t.pc = s.pc + 2 ∧ s.sameBut [.v, .pc] t) ∧
      (StepCompletes (.getDelay x) s fun t => t.reg x = s.dt ∧ t.dt.toNat = s.dt.toNat - 1)

/-- SetDelay writes DT; SetSound writes ST, with the guard only above 2; a whole step then ticks the
value left. Rests on spec/45_keyboard_timers.md section 2. SetDelay completes in every state with
DT = Vx. SetSound completes in every state with ST = Vx where the guard is off or Vx exceeds 2,
else ST unchanged (SETSOUND_GUARD is the spec's decision D12, log entry 7). PC + 2, nothing else
changed. A whole SetDelay step leaves DT at Vx less one, floor zero; a whole SetSound step leaves
ST at Vx less one where it is written, else at the old ST less one, floor zero (one tick per step
is D26, log entry 26). -/
def Obligations.TimerWritesTickInTheSameStep : Prop :=
  RowDecodes 0xF0FF 0xF015 (fun w => .setDelay (fieldX w)) ∧
    RowDecodes 0xF0FF 0xF018 (fun w => .setSound (fieldX w)) ∧
    ∀ (s : State) (x : Reg),
      (Completes (.setDelay x) s fun t =>
        t.dt = s.reg x ∧ t.pc = s.pc + 2 ∧ s.sameBut [.dt, .pc] t) ∧
      (Completes (.setSound x) s fun t =>
        t.st = (if s.params.setSoundGuard = true ∧ (s.reg x).toNat ≤ 2 then s.st else s.reg x) ∧
        t.pc = s.pc + 2 ∧ s.sameBut [.st, .pc] t) ∧
      (StepCompletes (.setDelay x) s fun t => t.dt.toNat = (s.reg x).toNat - 1) ∧
      (StepCompletes (.setSound x) s fun t =>
        t.st.toNat =
          (if s.params.setSoundGuard = true ∧ (s.reg x).toNat ≤ 2 then s.st.toNat
            else (s.reg x).toNat) - 1)

/-- Every step of a running machine, faulting or not, takes exactly one input of the host; a halted
one takes none. Rests on spec/40_step_cycle.md, the Step pseudocode and the rules on sampling,
fetch, decode and execute; spec/70_reset_and_hazards.md section 2. After any step of a machine
that is not halted, also one that faults, K and RND hold the input of that step, the schedule is
shorter by its first entry and the counter is one higher; after a step of a halted machine
schedule, counter, K and RND are as they were. The schedule and the counter are the model's own
(log entries 3, 4, 5). -/
def Obligations.EveryStepTakesOneInput : Prop :=
  ∀ s t : State, step s = .next t →
    (s.halted = false → t.k = s.nextInput.keys ∧ t.rnd = s.nextInput.rnd ∧
      t.inputs = s.inputs.tail ∧ t.tick = s.tick + 1) ∧
    (s.halted = true → t.k = s.k ∧ t.rnd = s.rnd ∧ t.inputs = s.inputs ∧ t.tick = s.tick)
end

