-- ==== Sys2Proof/Laws/Decode.lean ====
section
/-!
SUPPORT. The rows of the opcode map exclude each other, so a word's row decides what it decodes to.
-/

namespace Sys2Proof

/-- Two rows compare some digit they both fix differently. -/
def OpRow.clash (r q : OpRow) : Bool := (r.mask &&& q.mask) &&& (r.value ^^^ q.value) != 0

/-- Every two rows of the opcode map clash. -/
theorem opcodeMap_clash : opcodeMap.Pairwise fun r q => r.clash q = true := by
  unfold opcodeMap opRowsLow opRowsAlu opRowsMid opRowsHigh
  decide

/-- No word selects two rows that clash. -/
theorem OpRow.selects_clash {r q : OpRow} {w : Word} (hr : r.selects w = true)
    (hq : q.selects w = true) : r.clash q = false := by
  simp only [OpRow.selects, beq_iff_eq] at hr hq
  simp only [OpRow.clash, bne_eq_false_iff_eq, ← hr, ← hq]
  ext j hj
  simp
  cases w[j] <;> cases r.mask[j] <;> cases q.mask[j] <;> simp

/-- A word decodes by the row it selects, whichever row that is. -/
theorem decode_of_selects {r : OpRow} {w : Word} (hmem : r ∈ opcodeMap)
    (hsel : r.selects w = true) : decode w = .ok (r.build w) := by
  have hfind : ∀ rows : List OpRow, (rows.Pairwise fun r q => r.clash q = true) → r ∈ rows →
      rows.find? (fun q => q.selects w) = some r := by
    intro rows
    induction rows with
    | nil => intro _ h; cases h
    | cons q rest ih =>
      intro hp hin
      rw [List.pairwise_cons] at hp
      rcases List.mem_cons.1 hin with rfl | hin
      · simp [hsel]
      · have hq : q.selects w = false := by
          by_contra hq
          have := OpRow.selects_clash (by simpa using hq) hsel
          rw [hp.1 r hin] at this
          cases this
        simpa [hq] using ih hp.2 hin
  simp [decode, hfind opcodeMap opcodeMap_clash hmem]

/-- A word decodes to an instruction iff it selects a row that builds it. -/
theorem decode_eq_ok_iff {w : Word} {i : Instr} :
    decode w = .ok i ↔ ∃ r ∈ opcodeMap, r.selects w = true ∧ r.build w = i := by
  constructor
  · intro h
    unfold decode at h
    split at h
    · next r hr =>
      cases h
      exact ⟨r, List.mem_of_find?_eq_some hr, by simpa using List.find?_some hr, rfl⟩
    · cases h
  · rintro ⟨r, hmem, hsel, rfl⟩
    exact decode_of_selects hmem hsel

/-- A word decodes to nothing iff it selects no row; the error names the word. -/
theorem decode_eq_error_iff {w : Word} {e : DecodeError} :
    decode w = .error e ↔ e = .unknownOpcode w ∧ ∀ r ∈ opcodeMap, r.selects w = false := by
  unfold decode
  constructor
  · intro h
    split at h
    · cases h
    · next hn => cases h; exact ⟨rfl, by simpa using hn⟩
  · rintro ⟨rfl, h⟩
    split
    · next r hr =>
      have := h r (List.mem_of_find?_eq_some hr)
      rw [show r.selects w = true by simpa using List.find?_some hr] at this
      cases this
    · rfl

/-- The number of the word of two bytes (R63). -/
@[simp] theorem wordOfBytes_toNat (hi lo : Byte) :
    (wordOfBytes hi lo).toNat = hi.toNat * 256 + lo.toNat := by
  have h1 := hi.isLt
  have h2 := lo.isLt
  rw [wordOfBytes, BitVec.toNat_ofNat, Nat.mod_eq_of_lt (by omega)]

/-- The word of an instruction's two bytes is the word: they are laid out high byte first. -/
theorem wordOfBytes_bytes (w : Word) : wordOfBytes (w.extractLsb' 8 8) (w.extractLsb' 0 8) = w := by
  have h := w.isLt
  refine BitVec.eq_of_toNat_eq ?_
  rw [wordOfBytes_toNat, BitVec.extractLsb'_toNat, BitVec.extractLsb'_toNat,
    Nat.shiftRight_eq_div_pow, Nat.shiftRight_eq_div_pow]
  omega

end Sys2Proof
end

