-- ==== Sys2Proof/Laws/Memory.lean ====
section
/-!
SUPPORT. The laws of memory: a read after a write, the canonical form, and what a block transfer does.
-/

namespace Sys2Proof.Machine

variable {m : Memory} {a b : Nat} {v : Byte}

theorem Memory.peek_of_unlisted (h : ∀ c ∈ m, c.1 ≠ a) : m.peek a = unlistedByte a := by
  induction m with
  | nil => rfl
  | cons c rest ih =>
    have hc := h c (by simp)
    simp [Memory.peek, hc, ih fun d hd => h d (by simp [hd])]

theorem Memory.peek_filter_other (h : b ≠ a) :
    Memory.peek (m.filter fun c => c.1 != a) b = m.peek b := by
  induction m with
  | nil => rfl
  | cons c rest ih =>
    by_cases hc : c.1 = a
    · have hb : c.1 ≠ b := by omega
      simp [hc, Memory.peek, ih]
      omega
    · simp [hc, Memory.peek, ih]

theorem Memory.peek_insertCell_same : (Memory.insertCell m (a, v)).peek a = v := by
  induction m with
  | nil => simp [Memory.insertCell, Memory.peek]
  | cons d rest ih =>
    by_cases hd : d.1 < a
    · have : d.1 ≠ a := by omega
      simp [Memory.insertCell, hd, Memory.peek, this, ih]
    · simp [Memory.insertCell, hd, Memory.peek]

theorem Memory.peek_insertCell_other (h : b ≠ a) :
    (Memory.insertCell m (a, v)).peek b = m.peek b := by
  induction m with
  | nil => simp [Memory.insertCell, Memory.peek]; omega
  | cons d rest ih =>
    by_cases hd : d.1 < a
    · simp [Memory.insertCell, hd, Memory.peek, ih]
    · simp [Memory.insertCell, hd, Memory.peek]; omega

/-- A read after a write to the same address gives the byte written. -/
theorem Memory.peek_poke_same (m : Memory) (a : Nat) (v : Byte) : (m.poke a v).peek a = v := by
  unfold Memory.poke
  split
  · next h => rw [h]; exact Memory.peek_of_unlisted (by simp)
  · exact Memory.peek_insertCell_same

/-- A write leaves every other byte alone. -/
theorem Memory.peek_poke_other (m : Memory) (a b : Nat) (v : Byte) (h : b ≠ a) :
    (m.poke a v).peek b = m.peek b := by
  unfold Memory.poke
  split
  · exact Memory.peek_filter_other h
  · exact (Memory.peek_insertCell_other h).trans (Memory.peek_filter_other h)

/-- What a write does, once for every address. -/
theorem Memory.peek_poke (m : Memory) (a b : Nat) (v : Byte) :
    (m.poke a v).peek b = if b = a then v else m.peek b := by
  split
  · next h => rw [h, Memory.peek_poke_same]
  · next h => exact Memory.peek_poke_other m a b v h

theorem Memory.mem_insertCell {c d : Host.Cell} :
    d ∈ Memory.insertCell m c ↔ d = c ∨ d ∈ m := by
  induction m with
  | nil => simp [Memory.insertCell]
  | cons e rest ih =>
    unfold Memory.insertCell
    split
    · simp only [List.mem_cons, ih]; tauto
    · simp

theorem Memory.pairwise_insertCell {c : Host.Cell} (hm : m.Pairwise fun d e => d.1 < e.1)
    (hc : ∀ d ∈ m, d.1 ≠ c.1) : (Memory.insertCell m c).Pairwise fun d e => d.1 < e.1 := by
  induction m with
  | nil => simp [Memory.insertCell]
  | cons e rest ih =>
    rw [List.pairwise_cons] at hm
    have hrest := ih hm.2 fun d hd => hc d (by simp [hd])
    have he := hc e (by simp)
    unfold Memory.insertCell
    split
    · next hlt =>
      refine List.pairwise_cons.2 ⟨fun d hd => ?_, hrest⟩
      rcases Memory.mem_insertCell.1 hd with rfl | hd
      · exact hlt
      · exact hm.1 d hd
    · next hge =>
      refine List.pairwise_cons.2 ⟨fun d hd => ?_, List.pairwise_cons.2 hm⟩
      rcases List.mem_cons.1 hd with rfl | hd
      · omega
      · have := hm.1 d hd; omega

/-- A write keeps the canonical form. -/
theorem Memory.wf_poke (hm : m.wf) (ha : a < 4096) : (m.poke a v).wf := by
  have hp : (m.filter fun c => c.1 != a).Pairwise fun c d => c.1 < d.1 := hm.1.filter _
  unfold Memory.poke
  split
  · exact ⟨hp, fun c hc => hm.2 c (List.mem_filter.1 hc).1⟩
  · next hv =>
    refine ⟨Memory.pairwise_insertCell hp (by simp), fun c hc => ?_⟩
    rcases Memory.mem_insertCell.1 hc with rfl | hc
    · exact ⟨ha, hv⟩
    · exact hm.2 c (List.mem_filter.1 hc).1

theorem Memory.mem_ofBytesBelow {n : Nat} {f : Nat → Byte} {c : Host.Cell} :
    c ∈ Memory.ofBytesBelow n f ↔ c.1 < n ∧ f c.1 ≠ unlistedByte c.1 ∧ c.2 = f c.1 := by
  simp only [Memory.ofBytesBelow, List.mem_filterMap, List.mem_range]
  constructor
  · rintro ⟨x, hx, hc⟩
    split at hc
    · cases hc
    · next h => cases hc; exact ⟨hx, h, rfl⟩
  · rintro ⟨h1, h2, h3⟩
    exact ⟨c.1, h1, by rw [if_neg h2, ← h3]⟩

theorem Memory.pairwise_ofBytesBelow (n : Nat) (f : Nat → Byte) :
    (Memory.ofBytesBelow n f).Pairwise fun c d => c.1 < d.1 := by
  refine List.Pairwise.filterMap _ (fun x y hxy c hc d hd => ?_) (List.pairwise_lt_range (n := n))
  split at hc <;> cases hc
  split at hd <;> cases hd
  exact hxy

theorem Memory.ofBytes_eq (f : Nat → Byte) : Memory.ofBytes f = Memory.ofBytesBelow 4096 f := by
  unfold Memory.ofBytes; exact Eq.refl _

/-- The cells of a memory written out byte by byte. -/
theorem Memory.mem_ofBytes {f : Nat → Byte} {c : Host.Cell} :
    c ∈ Memory.ofBytes f ↔ c.1 < 4096 ∧ f c.1 ≠ unlistedByte c.1 ∧ c.2 = f c.1 := by
  rw [Memory.ofBytes_eq, Memory.mem_ofBytesBelow]

/-- A memory written out byte by byte has the canonical form. -/
theorem Memory.wf_ofBytes (f : Nat → Byte) : (Memory.ofBytes f).wf := by
  refine ⟨by rw [Memory.ofBytes_eq]; exact Memory.pairwise_ofBytesBelow 4096 f, fun c hc => ?_⟩
  obtain ⟨h1, h2, h3⟩ := Memory.mem_ofBytes.1 hc
  exact ⟨h1, h3 ▸ h2⟩

/-- A memory in canonical form lists an address's cell iff its byte differs from the unlisted one. -/
theorem Memory.mem_iff_peek (hm : m.wf) :
    (a, v) ∈ m ↔ m.peek a = v ∧ v ≠ unlistedByte a ∧ a < 4096 := by
  induction m with
  | nil => simp [Memory.peek]; intro h1 h2; exact absurd h1.symm h2
  | cons c rest ih =>
    have hrest : Memory.wf rest := ⟨(List.pairwise_cons.1 hm.1).2, fun d hd => hm.2 d (by simp [hd])⟩
    have hlt := (List.pairwise_cons.1 hm.1).1
    have hc := hm.2 c (by simp)
    by_cases h : c.1 = a
    · subst h
      have : (c.1, v) ∉ rest := fun hmem => by have := hlt _ hmem; simp at this
      simp only [List.mem_cons, this, or_false, Memory.peek, if_true]
      constructor
      · intro e; rw [← e] at hc ⊢; exact ⟨rfl, hc.2, hc.1⟩
      · rintro ⟨rfl, -, -⟩; rfl
    · have hne : (a, v) ≠ c := fun e => h (by rw [← e])
      simp [Memory.peek, h, hne, ih hrest]

/-- `ofBytes f` reads as `f` on the whole address space. -/
theorem Memory.peek_ofBytes (f : Nat → Byte) (h : a < 4096) : (Memory.ofBytes f).peek a = f a := by
  by_cases hf : f a = unlistedByte a
  · rw [hf]
    refine Memory.peek_of_unlisted fun c hc e => ?_
    have := (Memory.mem_ofBytes.1 hc).2.1
    rw [e] at this
    exact this hf
  · exact ((Memory.mem_iff_peek (Memory.wf_ofBytes f)).1 (Memory.mem_ofBytes.2 ⟨h, hf, rfl⟩)).1

@[simp] theorem Memory.readByte_ok (m : Memory) (h : a < 4096) : m.readByte a = .ok (m.peek a) := by
  simp [Memory.readByte, h]

@[simp] theorem Memory.readByte_error (m : Memory) (h : 4096 ≤ a) :
    m.readByte a = .error (latchOutOfBounds a) := by
  simp [Memory.readByte, Nat.not_lt.2 h]

@[simp] theorem Memory.writeByte_ok (m : Memory) (v : Byte) (h : a < 4096) :
    m.writeByte a v = .ok (m.poke a v) := by
  simp [Memory.writeByte, h]

@[simp] theorem Memory.writeByte_error (m : Memory) (v : Byte) (h : 4096 ≤ a) :
    m.writeByte a v = .error (latchOutOfBounds a) := by
  simp [Memory.writeByte, Nat.not_lt.2 h]

/-- What a wide read does, for every address. -/
theorem Memory.readWide_eq (m : Memory) (a : Nat) :
    m.readWide a =
      if a + 1 < 4096 then .ok (wordOfBytes (m.peek a) (m.peek (a + 1)))
      else .error (latchOutOfBounds (max a 4096)) := by
  unfold Memory.readWide
  rcases Nat.lt_or_ge a 4096 with h | h
  · rcases Nat.lt_or_ge (a + 1) 4096 with h' | h'
    · simp [h, h']
    · have : a = 4095 := by omega
      subst this; simp
  · have h' : ¬ a + 1 < 4096 := by omega
    simp [h, h']

/-- What a block read does, for every address and length. -/
theorem Memory.readBlock_eq (m : Memory) (a n : Nat) :
    m.readBlock a n =
      if n = 0 ∨ a + n ≤ 4096 then .ok ((List.range n).map fun j => m.peek (a + j))
      else .error (latchOutOfBounds (max a 4096)) := by
  induction n generalizing a with
  | zero => simp [Memory.readBlock]
  | succ n ih =>
    unfold Memory.readBlock
    rcases Nat.lt_or_ge a 4096 with h | h
    · rw [Memory.readByte_ok m h, ih (a + 1)]
      by_cases hn : n = 0 ∨ a + 1 + n ≤ 4096
      · have hn' : a + (n + 1) ≤ 4096 := by omega
        simp only [hn, if_true, hn', or_true]
        simp [List.range_succ_eq_map, Function.comp_def, Nat.add_assoc, Nat.add_comm 1]
      · have hn' : ¬ a + (n + 1) ≤ 4096 := by omega
        have hmax : max (a + 1) 4096 = max a 4096 := by omega
        simp [hn, hn', hmax]
    · have hn' : ¬ a + (n + 1) ≤ 4096 := by omega
      simp [h, hn']

/-- What a block write that stays in memory does. -/
theorem Memory.writeBlock_ok (m : Memory) (a : Nat) (bs : List Byte)
    (h : bs = [] ∨ a + bs.length ≤ 4096) :
    ∃ m', m.writeBlock a bs = .ok m' ∧ (m.wf → m'.wf) ∧
      ∀ b, m'.peek b =
        if a ≤ b ∧ b < a + bs.length then (bs[b - a]?).getD 0 else m.peek b := by
  induction bs generalizing m a with
  | nil => exact ⟨m, rfl, id, fun b => by simp⟩
  | cons v bs ih =>
    have hlen : a + (bs.length + 1) ≤ 4096 := by simpa using h
    obtain ⟨m', hw, hwf, hpeek⟩ := ih (m.poke a v) (a + 1) (by right; omega)
    refine ⟨m', ?_, fun hm => hwf (Memory.wf_poke hm (by omega)), fun b => ?_⟩
    · simp [Memory.writeBlock, Memory.writeByte_ok m v (show a < 4096 by omega), hw]
    · rw [hpeek, Memory.peek_poke, List.length_cons]
      rcases Nat.lt_trichotomy b a with hb | hb | hb
      · rw [if_neg (by omega), if_neg hb.ne, if_neg (by omega)]
      · subst hb
        rw [if_neg (by omega), if_pos (by omega)]
        simp
      · have h3 : b - a = (b - (a + 1)) + 1 := by omega
        by_cases h4 : b < a + 1 + bs.length
        · rw [if_pos (by omega), if_pos (by omega), h3, List.getElem?_cons_succ]
        · rw [if_neg (by omega), if_neg hb.ne', if_neg (by omega)]

/-- A block write that leaves memory faults at its first address out of range (R64). -/
theorem Memory.writeBlock_error (m : Memory) (a : Nat) (bs : List Byte) (hne : bs ≠ [])
    (h : 4096 < a + bs.length) : m.writeBlock a bs = .error (latchOutOfBounds (max a 4096)) := by
  induction bs generalizing m a with
  | nil => exact absurd rfl hne
  | cons v bs ih =>
    unfold Memory.writeBlock
    rcases Nat.lt_or_ge a 4096 with ha | ha
    · have hbs : bs ≠ [] := by
        rintro rfl
        simp at h; omega
      have hmax : max (a + 1) 4096 = max a 4096 := by omega
      rw [Memory.writeByte_ok m v ha]
      simp only [List.length_cons] at h
      simpa only [hmax] using ih (m.poke a v) (a + 1) hbs (by omega)
    · have hmax : max a 4096 = a := by omega
      rw [Memory.writeByte_error m v ha, hmax]

end Sys2Proof.Machine
end

