-- ==== Sys2Proof/Laws/State.lean ====
section
/-!
SUPPORT. What every update of the state leaves in every field, so that no proof unfolds a record update.
-/

namespace Sys2Proof.Machine

@[simp] theorem State.setReg_v (s : State) (r : Reg) (b : Byte) : (s.setReg r b).v = s.v.set r.val b := rfl
@[simp] theorem State.setReg_i (s : State) (r : Reg) (b : Byte) : (s.setReg r b).i = s.i := rfl
@[simp] theorem State.setReg_pc (s : State) (r : Reg) (b : Byte) : (s.setReg r b).pc = s.pc := rfl
@[simp] theorem State.setReg_dt (s : State) (r : Reg) (b : Byte) : (s.setReg r b).dt = s.dt := rfl
@[simp] theorem State.setReg_st (s : State) (r : Reg) (b : Byte) : (s.setReg r b).st = s.st := rfl
@[simp] theorem State.setReg_sp (s : State) (r : Reg) (b : Byte) : (s.setReg r b).sp = s.sp := rfl
@[simp] theorem State.setReg_stack (s : State) (r : Reg) (b : Byte) : (s.setReg r b).stack = s.stack := rfl
@[simp] theorem State.setReg_mem (s : State) (r : Reg) (b : Byte) : (s.setReg r b).mem = s.mem := rfl
@[simp] theorem State.setReg_fb (s : State) (r : Reg) (b : Byte) : (s.setReg r b).fb = s.fb := rfl
@[simp] theorem State.setReg_runState (s : State) (r : Reg) (b : Byte) : (s.setReg r b).runState = s.runState := rfl
@[simp] theorem State.setReg_fault (s : State) (r : Reg) (b : Byte) : (s.setReg r b).fault = s.fault := rfl
@[simp] theorem State.setReg_strobe (s : State) (r : Reg) (b : Byte) : (s.setReg r b).strobe = s.strobe := rfl
@[simp] theorem State.setReg_k (s : State) (r : Reg) (b : Byte) : (s.setReg r b).k = s.k := rfl
@[simp] theorem State.setReg_rnd (s : State) (r : Reg) (b : Byte) : (s.setReg r b).rnd = s.rnd := rfl
@[simp] theorem State.setReg_inputs (s : State) (r : Reg) (b : Byte) : (s.setReg r b).inputs = s.inputs := rfl
@[simp] theorem State.setReg_tick (s : State) (r : Reg) (b : Byte) : (s.setReg r b).tick = s.tick := rfl
@[simp] theorem State.setReg_params (s : State) (r : Reg) (b : Byte) : (s.setReg r b).params = s.params := rfl

@[simp] theorem State.advance_v (s : State) : (s.advance).v = s.v := rfl
@[simp] theorem State.advance_i (s : State) : (s.advance).i = s.i := rfl
@[simp] theorem State.advance_pc (s : State) : (s.advance).pc = s.pc + 2 := rfl
@[simp] theorem State.advance_dt (s : State) : (s.advance).dt = s.dt := rfl
@[simp] theorem State.advance_st (s : State) : (s.advance).st = s.st := rfl
@[simp] theorem State.advance_sp (s : State) : (s.advance).sp = s.sp := rfl
@[simp] theorem State.advance_stack (s : State) : (s.advance).stack = s.stack := rfl
@[simp] theorem State.advance_mem (s : State) : (s.advance).mem = s.mem := rfl
@[simp] theorem State.advance_fb (s : State) : (s.advance).fb = s.fb := rfl
@[simp] theorem State.advance_runState (s : State) : (s.advance).runState = s.runState := rfl
@[simp] theorem State.advance_fault (s : State) : (s.advance).fault = s.fault := rfl
@[simp] theorem State.advance_strobe (s : State) : (s.advance).strobe = s.strobe := rfl
@[simp] theorem State.advance_k (s : State) : (s.advance).k = s.k := rfl
@[simp] theorem State.advance_rnd (s : State) : (s.advance).rnd = s.rnd := rfl
@[simp] theorem State.advance_inputs (s : State) : (s.advance).inputs = s.inputs := rfl
@[simp] theorem State.advance_tick (s : State) : (s.advance).tick = s.tick := rfl
@[simp] theorem State.advance_params (s : State) : (s.advance).params = s.params := rfl

@[simp] theorem State.skipIf_v (s : State) (c : Bool) : (s.skipIf c).v = s.v := rfl
@[simp] theorem State.skipIf_i (s : State) (c : Bool) : (s.skipIf c).i = s.i := rfl
@[simp] theorem State.skipIf_pc (s : State) (c : Bool) : (s.skipIf c).pc = if c then s.pc + 4 else s.pc + 2 := rfl
@[simp] theorem State.skipIf_dt (s : State) (c : Bool) : (s.skipIf c).dt = s.dt := rfl
@[simp] theorem State.skipIf_st (s : State) (c : Bool) : (s.skipIf c).st = s.st := rfl
@[simp] theorem State.skipIf_sp (s : State) (c : Bool) : (s.skipIf c).sp = s.sp := rfl
@[simp] theorem State.skipIf_stack (s : State) (c : Bool) : (s.skipIf c).stack = s.stack := rfl
@[simp] theorem State.skipIf_mem (s : State) (c : Bool) : (s.skipIf c).mem = s.mem := rfl
@[simp] theorem State.skipIf_fb (s : State) (c : Bool) : (s.skipIf c).fb = s.fb := rfl
@[simp] theorem State.skipIf_runState (s : State) (c : Bool) : (s.skipIf c).runState = s.runState := rfl
@[simp] theorem State.skipIf_fault (s : State) (c : Bool) : (s.skipIf c).fault = s.fault := rfl
@[simp] theorem State.skipIf_strobe (s : State) (c : Bool) : (s.skipIf c).strobe = s.strobe := rfl
@[simp] theorem State.skipIf_k (s : State) (c : Bool) : (s.skipIf c).k = s.k := rfl
@[simp] theorem State.skipIf_rnd (s : State) (c : Bool) : (s.skipIf c).rnd = s.rnd := rfl
@[simp] theorem State.skipIf_inputs (s : State) (c : Bool) : (s.skipIf c).inputs = s.inputs := rfl
@[simp] theorem State.skipIf_tick (s : State) (c : Bool) : (s.skipIf c).tick = s.tick := rfl
@[simp] theorem State.skipIf_params (s : State) (c : Bool) : (s.skipIf c).params = s.params := rfl

@[simp] theorem State.jumpTo_v (s : State) (a : Word) : (s.jumpTo a).v = s.v := rfl
@[simp] theorem State.jumpTo_i (s : State) (a : Word) : (s.jumpTo a).i = s.i := rfl
@[simp] theorem State.jumpTo_pc (s : State) (a : Word) : (s.jumpTo a).pc = a := rfl
@[simp] theorem State.jumpTo_dt (s : State) (a : Word) : (s.jumpTo a).dt = s.dt := rfl
@[simp] theorem State.jumpTo_st (s : State) (a : Word) : (s.jumpTo a).st = s.st := rfl
@[simp] theorem State.jumpTo_sp (s : State) (a : Word) : (s.jumpTo a).sp = s.sp := rfl
@[simp] theorem State.jumpTo_stack (s : State) (a : Word) : (s.jumpTo a).stack = s.stack := rfl
@[simp] theorem State.jumpTo_mem (s : State) (a : Word) : (s.jumpTo a).mem = s.mem := rfl
@[simp] theorem State.jumpTo_fb (s : State) (a : Word) : (s.jumpTo a).fb = s.fb := rfl
@[simp] theorem State.jumpTo_runState (s : State) (a : Word) : (s.jumpTo a).runState = s.runState := rfl
@[simp] theorem State.jumpTo_fault (s : State) (a : Word) : (s.jumpTo a).fault = s.fault := rfl
@[simp] theorem State.jumpTo_strobe (s : State) (a : Word) : (s.jumpTo a).strobe = s.strobe := rfl
@[simp] theorem State.jumpTo_k (s : State) (a : Word) : (s.jumpTo a).k = s.k := rfl
@[simp] theorem State.jumpTo_rnd (s : State) (a : Word) : (s.jumpTo a).rnd = s.rnd := rfl
@[simp] theorem State.jumpTo_inputs (s : State) (a : Word) : (s.jumpTo a).inputs = s.inputs := rfl
@[simp] theorem State.jumpTo_tick (s : State) (a : Word) : (s.jumpTo a).tick = s.tick := rfl
@[simp] theorem State.jumpTo_params (s : State) (a : Word) : (s.jumpTo a).params = s.params := rfl

@[simp] theorem State.setRegBlock_i (s : State) (bs : List Byte) : (s.setRegBlock bs).i = s.i := rfl
@[simp] theorem State.setRegBlock_pc (s : State) (bs : List Byte) : (s.setRegBlock bs).pc = s.pc := rfl
@[simp] theorem State.setRegBlock_dt (s : State) (bs : List Byte) : (s.setRegBlock bs).dt = s.dt := rfl
@[simp] theorem State.setRegBlock_st (s : State) (bs : List Byte) : (s.setRegBlock bs).st = s.st := rfl
@[simp] theorem State.setRegBlock_sp (s : State) (bs : List Byte) : (s.setRegBlock bs).sp = s.sp := rfl
@[simp] theorem State.setRegBlock_stack (s : State) (bs : List Byte) : (s.setRegBlock bs).stack = s.stack := rfl
@[simp] theorem State.setRegBlock_mem (s : State) (bs : List Byte) : (s.setRegBlock bs).mem = s.mem := rfl
@[simp] theorem State.setRegBlock_fb (s : State) (bs : List Byte) : (s.setRegBlock bs).fb = s.fb := rfl
@[simp] theorem State.setRegBlock_runState (s : State) (bs : List Byte) : (s.setRegBlock bs).runState = s.runState := rfl
@[simp] theorem State.setRegBlock_fault (s : State) (bs : List Byte) : (s.setRegBlock bs).fault = s.fault := rfl
@[simp] theorem State.setRegBlock_strobe (s : State) (bs : List Byte) : (s.setRegBlock bs).strobe = s.strobe := rfl
@[simp] theorem State.setRegBlock_k (s : State) (bs : List Byte) : (s.setRegBlock bs).k = s.k := rfl
@[simp] theorem State.setRegBlock_rnd (s : State) (bs : List Byte) : (s.setRegBlock bs).rnd = s.rnd := rfl
@[simp] theorem State.setRegBlock_inputs (s : State) (bs : List Byte) : (s.setRegBlock bs).inputs = s.inputs := rfl
@[simp] theorem State.setRegBlock_tick (s : State) (bs : List Byte) : (s.setRegBlock bs).tick = s.tick := rfl
@[simp] theorem State.setRegBlock_params (s : State) (bs : List Byte) : (s.setRegBlock bs).params = s.params := rfl

@[simp] theorem State.writeResult_v (s : State) (x : Reg) (r : Byte) : (s.writeResult x r).v = s.v.set x.val r := rfl
@[simp] theorem State.writeResult_i (s : State) (x : Reg) (r : Byte) : (s.writeResult x r).i = s.i := rfl
@[simp] theorem State.writeResult_pc (s : State) (x : Reg) (r : Byte) : (s.writeResult x r).pc = s.pc + 2 := rfl
@[simp] theorem State.writeResult_dt (s : State) (x : Reg) (r : Byte) : (s.writeResult x r).dt = s.dt := rfl
@[simp] theorem State.writeResult_st (s : State) (x : Reg) (r : Byte) : (s.writeResult x r).st = s.st := rfl
@[simp] theorem State.writeResult_sp (s : State) (x : Reg) (r : Byte) : (s.writeResult x r).sp = s.sp := rfl
@[simp] theorem State.writeResult_stack (s : State) (x : Reg) (r : Byte) : (s.writeResult x r).stack = s.stack := rfl
@[simp] theorem State.writeResult_mem (s : State) (x : Reg) (r : Byte) : (s.writeResult x r).mem = s.mem := rfl
@[simp] theorem State.writeResult_fb (s : State) (x : Reg) (r : Byte) : (s.writeResult x r).fb = s.fb := rfl
@[simp] theorem State.writeResult_runState (s : State) (x : Reg) (r : Byte) : (s.writeResult x r).runState = s.runState := rfl
@[simp] theorem State.writeResult_fault (s : State) (x : Reg) (r : Byte) : (s.writeResult x r).fault = s.fault := rfl
@[simp] theorem State.writeResult_strobe (s : State) (x : Reg) (r : Byte) : (s.writeResult x r).strobe = s.strobe := rfl
@[simp] theorem State.writeResult_k (s : State) (x : Reg) (r : Byte) : (s.writeResult x r).k = s.k := rfl
@[simp] theorem State.writeResult_rnd (s : State) (x : Reg) (r : Byte) : (s.writeResult x r).rnd = s.rnd := rfl
@[simp] theorem State.writeResult_inputs (s : State) (x : Reg) (r : Byte) : (s.writeResult x r).inputs = s.inputs := rfl
@[simp] theorem State.writeResult_tick (s : State) (x : Reg) (r : Byte) : (s.writeResult x r).tick = s.tick := rfl
@[simp] theorem State.writeResult_params (s : State) (x : Reg) (r : Byte) : (s.writeResult x r).params = s.params := rfl

@[simp] theorem State.resultThenFlag_i (s : State) (x : Reg) (r f : Byte) : (s.resultThenFlag x r f).i = s.i := rfl
@[simp] theorem State.resultThenFlag_pc (s : State) (x : Reg) (r f : Byte) : (s.resultThenFlag x r f).pc = s.pc + 2 := rfl
@[simp] theorem State.resultThenFlag_dt (s : State) (x : Reg) (r f : Byte) : (s.resultThenFlag x r f).dt = s.dt := rfl
@[simp] theorem State.resultThenFlag_st (s : State) (x : Reg) (r f : Byte) : (s.resultThenFlag x r f).st = s.st := rfl
@[simp] theorem State.resultThenFlag_sp (s : State) (x : Reg) (r f : Byte) : (s.resultThenFlag x r f).sp = s.sp := rfl
@[simp] theorem State.resultThenFlag_stack (s : State) (x : Reg) (r f : Byte) : (s.resultThenFlag x r f).stack = s.stack := rfl
@[simp] theorem State.resultThenFlag_mem (s : State) (x : Reg) (r f : Byte) : (s.resultThenFlag x r f).mem = s.mem := rfl
@[simp] theorem State.resultThenFlag_fb (s : State) (x : Reg) (r f : Byte) : (s.resultThenFlag x r f).fb = s.fb := rfl
@[simp] theorem State.resultThenFlag_runState (s : State) (x : Reg) (r f : Byte) : (s.resultThenFlag x r f).runState = s.runState := rfl
@[simp] theorem State.resultThenFlag_fault (s : State) (x : Reg) (r f : Byte) : (s.resultThenFlag x r f).fault = s.fault := rfl
@[simp] theorem State.resultThenFlag_strobe (s : State) (x : Reg) (r f : Byte) : (s.resultThenFlag x r f).strobe = s.strobe := rfl
@[simp] theorem State.resultThenFlag_k (s : State) (x : Reg) (r f : Byte) : (s.resultThenFlag x r f).k = s.k := rfl
@[simp] theorem State.resultThenFlag_rnd (s : State) (x : Reg) (r f : Byte) : (s.resultThenFlag x r f).rnd = s.rnd := rfl
@[simp] theorem State.resultThenFlag_inputs (s : State) (x : Reg) (r f : Byte) : (s.resultThenFlag x r f).inputs = s.inputs := rfl
@[simp] theorem State.resultThenFlag_tick (s : State) (x : Reg) (r f : Byte) : (s.resultThenFlag x r f).tick = s.tick := rfl
@[simp] theorem State.resultThenFlag_params (s : State) (x : Reg) (r f : Byte) : (s.resultThenFlag x r f).params = s.params := rfl

@[simp] theorem State.flagThenResult_i (s : State) (x : Reg) (f r : Byte) : (s.flagThenResult x f r).i = s.i := rfl
@[simp] theorem State.flagThenResult_pc (s : State) (x : Reg) (f r : Byte) : (s.flagThenResult x f r).pc = s.pc + 2 := rfl
@[simp] theorem State.flagThenResult_dt (s : State) (x : Reg) (f r : Byte) : (s.flagThenResult x f r).dt = s.dt := rfl
@[simp] theorem State.flagThenResult_st (s : State) (x : Reg) (f r : Byte) : (s.flagThenResult x f r).st = s.st := rfl
@[simp] theorem State.flagThenResult_sp (s : State) (x : Reg) (f r : Byte) : (s.flagThenResult x f r).sp = s.sp := rfl
@[simp] theorem State.flagThenResult_stack (s : State) (x : Reg) (f r : Byte) : (s.flagThenResult x f r).stack = s.stack := rfl
@[simp] theorem State.flagThenResult_mem (s : State) (x : Reg) (f r : Byte) : (s.flagThenResult x f r).mem = s.mem := rfl
@[simp] theorem State.flagThenResult_fb (s : State) (x : Reg) (f r : Byte) : (s.flagThenResult x f r).fb = s.fb := rfl
@[simp] theorem State.flagThenResult_runState (s : State) (x : Reg) (f r : Byte) : (s.flagThenResult x f r).runState = s.runState := rfl
@[simp] theorem State.flagThenResult_fault (s : State) (x : Reg) (f r : Byte) : (s.flagThenResult x f r).fault = s.fault := rfl
@[simp] theorem State.flagThenResult_strobe (s : State) (x : Reg) (f r : Byte) : (s.flagThenResult x f r).strobe = s.strobe := rfl
@[simp] theorem State.flagThenResult_k (s : State) (x : Reg) (f r : Byte) : (s.flagThenResult x f r).k = s.k := rfl
@[simp] theorem State.flagThenResult_rnd (s : State) (x : Reg) (f r : Byte) : (s.flagThenResult x f r).rnd = s.rnd := rfl
@[simp] theorem State.flagThenResult_inputs (s : State) (x : Reg) (f r : Byte) : (s.flagThenResult x f r).inputs = s.inputs := rfl
@[simp] theorem State.flagThenResult_tick (s : State) (x : Reg) (f r : Byte) : (s.flagThenResult x f r).tick = s.tick := rfl
@[simp] theorem State.flagThenResult_params (s : State) (x : Reg) (f r : Byte) : (s.flagThenResult x f r).params = s.params := rfl

@[simp] theorem State.drawBytes_i (s : State) (x y : Reg) (bs : List Byte) : (s.drawBytes x y bs).i = s.i := rfl
@[simp] theorem State.drawBytes_pc (s : State) (x y : Reg) (bs : List Byte) : (s.drawBytes x y bs).pc = s.pc + 2 := rfl
@[simp] theorem State.drawBytes_dt (s : State) (x y : Reg) (bs : List Byte) : (s.drawBytes x y bs).dt = s.dt := rfl
@[simp] theorem State.drawBytes_st (s : State) (x y : Reg) (bs : List Byte) : (s.drawBytes x y bs).st = s.st := rfl
@[simp] theorem State.drawBytes_sp (s : State) (x y : Reg) (bs : List Byte) : (s.drawBytes x y bs).sp = s.sp := rfl
@[simp] theorem State.drawBytes_stack (s : State) (x y : Reg) (bs : List Byte) : (s.drawBytes x y bs).stack = s.stack := rfl
@[simp] theorem State.drawBytes_mem (s : State) (x y : Reg) (bs : List Byte) : (s.drawBytes x y bs).mem = s.mem := rfl
@[simp] theorem State.drawBytes_fb (s : State) (x y : Reg) (bs : List Byte) : (s.drawBytes x y bs).fb = (blit s.fb (s.reg x).toNat (s.reg y).toNat bs).1 := rfl
@[simp] theorem State.drawBytes_runState (s : State) (x y : Reg) (bs : List Byte) : (s.drawBytes x y bs).runState = s.runState := rfl
@[simp] theorem State.drawBytes_fault (s : State) (x y : Reg) (bs : List Byte) : (s.drawBytes x y bs).fault = s.fault := rfl
@[simp] theorem State.drawBytes_strobe (s : State) (x y : Reg) (bs : List Byte) : (s.drawBytes x y bs).strobe = true := rfl
@[simp] theorem State.drawBytes_k (s : State) (x y : Reg) (bs : List Byte) : (s.drawBytes x y bs).k = s.k := rfl
@[simp] theorem State.drawBytes_rnd (s : State) (x y : Reg) (bs : List Byte) : (s.drawBytes x y bs).rnd = s.rnd := rfl
@[simp] theorem State.drawBytes_inputs (s : State) (x y : Reg) (bs : List Byte) : (s.drawBytes x y bs).inputs = s.inputs := rfl
@[simp] theorem State.drawBytes_tick (s : State) (x y : Reg) (bs : List Byte) : (s.drawBytes x y bs).tick = s.tick := rfl
@[simp] theorem State.drawBytes_params (s : State) (x y : Reg) (bs : List Byte) : (s.drawBytes x y bs).params = s.params := rfl

@[simp] theorem State.beginStep_v (s : State) : (s.beginStep).v = s.v := rfl
@[simp] theorem State.beginStep_i (s : State) : (s.beginStep).i = s.i := rfl
@[simp] theorem State.beginStep_pc (s : State) : (s.beginStep).pc = s.pc := rfl
@[simp] theorem State.beginStep_dt (s : State) : (s.beginStep).dt = s.dt := rfl
@[simp] theorem State.beginStep_st (s : State) : (s.beginStep).st = s.st := rfl
@[simp] theorem State.beginStep_sp (s : State) : (s.beginStep).sp = s.sp := rfl
@[simp] theorem State.beginStep_stack (s : State) : (s.beginStep).stack = s.stack := rfl
@[simp] theorem State.beginStep_mem (s : State) : (s.beginStep).mem = s.mem := rfl
@[simp] theorem State.beginStep_fb (s : State) : (s.beginStep).fb = s.fb := rfl
@[simp] theorem State.beginStep_runState (s : State) : (s.beginStep).runState = s.runState := rfl
@[simp] theorem State.beginStep_fault (s : State) : (s.beginStep).fault = s.fault := rfl
@[simp] theorem State.beginStep_strobe (s : State) : (s.beginStep).strobe = false := rfl
@[simp] theorem State.beginStep_k (s : State) : (s.beginStep).k = s.nextInput.keys := rfl
@[simp] theorem State.beginStep_rnd (s : State) : (s.beginStep).rnd = s.nextInput.rnd := rfl
@[simp] theorem State.beginStep_inputs (s : State) : (s.beginStep).inputs = s.inputs.tail := rfl
@[simp] theorem State.beginStep_tick (s : State) : (s.beginStep).tick = s.tick + 1 := rfl
@[simp] theorem State.beginStep_params (s : State) : (s.beginStep).params = s.params := rfl

@[simp] theorem State.raise_fault (s : State) (f : FaultLatch) : (s.raise f).fault = f := rfl
@[simp] theorem State.raise_strobe (s : State) (f : FaultLatch) : (s.raise f).strobe = false := rfl
@[simp] theorem State.raise_k (s : State) (f : FaultLatch) : (s.raise f).k = s.k := rfl
@[simp] theorem State.raise_rnd (s : State) (f : FaultLatch) : (s.raise f).rnd = s.rnd := rfl
@[simp] theorem State.raise_inputs (s : State) (f : FaultLatch) : (s.raise f).inputs = s.inputs := rfl
@[simp] theorem State.raise_tick (s : State) (f : FaultLatch) : (s.raise f).tick = s.tick := rfl
@[simp] theorem State.raise_params (s : State) (f : FaultLatch) : (s.raise f).params = s.params := rfl

/-- Memory after a fault: some bytes, in canonical form. -/
@[simp] theorem State.raise_mem (s : State) (f : FaultLatch) :
    (s.raise f).mem = Memory.ofBytes (s.residue f).mem.peek := rfl

/-- Reading a register after writing one. -/
@[simp] theorem State.reg_setReg (s : State) (r q : Reg) (b : Byte) :
    (s.setReg r b).reg q = if r = q then b else s.reg q := by
  simp [State.reg, State.setReg, Vector.getElem_set, Fin.ext_iff]

@[simp] theorem State.reg_advance (s : State) (r : Reg) : s.advance.reg r = s.reg r := rfl
@[simp] theorem State.reg_skipIf (s : State) (c : Bool) (r : Reg) : (s.skipIf c).reg r = s.reg r := rfl
@[simp] theorem State.reg_jumpTo (s : State) (a : Word) (r : Reg) : (s.jumpTo a).reg r = s.reg r := rfl
@[simp] theorem State.reg_beginStep (s : State) (r : Reg) : s.beginStep.reg r = s.reg r := rfl

/-- A register reads the same wherever the register file is the same. -/
theorem State.reg_congr {s t : State} (h : t.v = s.v) (r : Reg) : t.reg r = s.reg r := by
  simp [State.reg, h]

@[simp] theorem State.reg_with_i (s : State) (a : Word) (r : Reg) :
    State.reg { s with i := a } r = s.reg r := rfl

@[simp] theorem State.reg_setRegBlock (s : State) (bs : List Byte) (r : Reg) :
    (s.setRegBlock bs).reg r = (bs[r.val]?).getD (s.reg r) := by
  simp [State.reg, State.setRegBlock]

@[simp] theorem State.reg_writeResult (s : State) (x q : Reg) (r : Byte) :
    (s.writeResult x r).reg q = if x = q then r else s.reg q := by
  simp [State.writeResult]

@[simp] theorem State.reg_resultThenFlag (s : State) (x q : Reg) (r f : Byte) :
    (s.resultThenFlag x r f).reg q = if VF = q then f else if x = q then r else s.reg q := by
  simp [State.resultThenFlag]

@[simp] theorem State.reg_flagThenResult (s : State) (x q : Reg) (f r : Byte) :
    (s.flagThenResult x f r).reg q = if x = q then r else if VF = q then f else s.reg q := by
  simp [State.flagThenResult]

@[simp] theorem State.reg_drawBytes (s : State) (x y q : Reg) (bs : List Byte) :
    (s.drawBytes x y bs).reg q =
      if VF = q then collisionFlag (blit s.fb (s.reg x).toNat (s.reg y).toNat bs).2 else s.reg q := by
  simp [State.drawBytes, State.reg]
  split <;> simp_all [VF, Fin.ext_iff]

@[simp] theorem State.endStep_v (s : State) (i : Instr) : (s.endStep i).v = s.v := by
  unfold State.endStep; split <;> rfl
@[simp] theorem State.endStep_i (s : State) (i : Instr) : (s.endStep i).i = s.i := by
  unfold State.endStep; split <;> rfl
@[simp] theorem State.endStep_pc (s : State) (i : Instr) : (s.endStep i).pc = s.pc := by
  unfold State.endStep; split <;> rfl
@[simp] theorem State.endStep_sp (s : State) (i : Instr) : (s.endStep i).sp = s.sp := by
  unfold State.endStep; split <;> rfl
@[simp] theorem State.endStep_stack (s : State) (i : Instr) : (s.endStep i).stack = s.stack := by
  unfold State.endStep; split <;> rfl
@[simp] theorem State.endStep_mem (s : State) (i : Instr) : (s.endStep i).mem = s.mem := by
  unfold State.endStep; split <;> rfl
@[simp] theorem State.endStep_fb (s : State) (i : Instr) : (s.endStep i).fb = s.fb := by
  unfold State.endStep; split <;> rfl
@[simp] theorem State.endStep_fault (s : State) (i : Instr) : (s.endStep i).fault = s.fault := by
  unfold State.endStep; split <;> rfl
@[simp] theorem State.endStep_strobe (s : State) (i : Instr) : (s.endStep i).strobe = s.strobe := by
  unfold State.endStep; split <;> rfl
@[simp] theorem State.endStep_k (s : State) (i : Instr) : (s.endStep i).k = s.k := by
  unfold State.endStep; split <;> rfl
@[simp] theorem State.endStep_rnd (s : State) (i : Instr) : (s.endStep i).rnd = s.rnd := by
  unfold State.endStep; split <;> rfl
@[simp] theorem State.endStep_inputs (s : State) (i : Instr) : (s.endStep i).inputs = s.inputs := by
  unfold State.endStep; split <;> rfl
@[simp] theorem State.endStep_tick (s : State) (i : Instr) : (s.endStep i).tick = s.tick := by
  unfold State.endStep; split <;> rfl
@[simp] theorem State.endStep_params (s : State) (i : Instr) : (s.endStep i).params = s.params := by
  unfold State.endStep; split <;> rfl
@[simp] theorem State.halted_endStep (s : State) (i : Instr) : (s.endStep i).halted = s.halted := by
  simp [State.halted]

@[simp] theorem State.reg_endStep (s : State) (i : Instr) (r : Reg) :
    (s.endStep i).reg r = s.reg r := State.reg_congr (by simp) r

@[simp] theorem State.halted_beginStep (s : State) : s.beginStep.halted = s.halted := rfl

theorem State.halted_raise (s : State) (f : FaultLatch) :
    (s.raise f).halted = (f.code != .none) := rfl

/-- The block of registers has a byte for each register up to `Vx`. -/
@[simp] theorem State.regBlock_length (s : State) (x : Reg) : (s.regBlock x).length = x.val + 1 := by
  simp [State.regBlock]

theorem State.regBlock_getElem? (s : State) (x r : Reg) (h : r ≤ x) :
    (s.regBlock x)[r.val]? = some (s.reg r) := by
  have : r.val < x.val + 1 := Nat.lt_succ_of_le h
  simp [State.regBlock, State.reg, this]

end Sys2Proof.Machine
end

