-- ==== Sys2Proof/Laws/Ops.lean ====
section
/-!
SUPPORT. What each shared operation can answer, once: stack, block transfers, operand forms, fetch.
-/

namespace Sys2Proof.Machine

/-- Everything a push can answer (R27). -/
theorem State.push_eq (s : State) (a : Word) :
    (s.sp.val < 16 ∧ ∃ t, s.push a = .ok t ∧ t.sp.val = s.sp.val + 1 ∧
      (∀ j (h : j < 16), t.stack[j] = if j = s.sp.val then a else s.stack[j]) ∧
      t.mem = s.mem ∧ s.sameBut [.sp, .stack] t) ∨
    (s.sp.val = 16 ∧ s.push a = .error latchStackOverflow) := by
  unfold State.push
  split
  · next h =>
    refine .inl ⟨h, _, rfl, rfl, fun j hj => ?_, rfl, fun f hf => ?_⟩
    · simp [Vector.getElem_set, eq_comm]
    · cases f <;> simp_all [Field.same]
  · next h => exact .inr ⟨by omega, rfl⟩

/-- Everything a pop can answer (R27). -/
theorem State.pop_eq (s : State) :
    (∃ h : 0 < s.sp.val, ∃ t, s.pop = .ok (s.stack[s.sp.val - 1]'(by omega), t) ∧
      t.sp.val = s.sp.val - 1 ∧ t.mem = s.mem ∧ s.sameBut [.sp] t) ∨
    (s.sp.val = 0 ∧ s.pop = .error latchStackUnderflow) := by
  unfold State.pop
  split
  · next h =>
    refine .inl ⟨h, _, rfl, rfl, rfl, fun f hf => ?_⟩
    cases f <;> simp_all [Field.same]
  · next h => exact .inr ⟨by omega, rfl⟩

/-- Everything a block read from `I` can answer (R64, R196). -/
theorem State.loadBlock_eq (s : State) (n : Nat) :
    s.loadBlock n =
      if n = 0 ∨ s.i.toNat + n ≤ 4096 then
        .ok ((List.range n).map fun j => s.mem.peek (s.i.toNat + j))
      else .error (latchOutOfBounds (max s.i.toNat 4096)) :=
  Memory.readBlock_eq s.mem s.i.toNat n

/-- A block store from `I` that stays in memory (R196). -/
theorem State.storeBlock_ok (s : State) (bs : List Byte)
    (h : bs = [] ∨ s.i.toNat + bs.length ≤ 4096) :
    ∃ t, s.storeBlock bs = .ok t ∧ s.sameBut [.mem] t ∧ (s.mem.wf → t.mem.wf) ∧
      ∀ b, t.mem.peek b = s.byteAfterStore bs b := by
  obtain ⟨m', hw, hwf, hp⟩ := Memory.writeBlock_ok s.mem s.i.toNat bs h
  refine ⟨{ s with mem := m' }, by simp [State.storeBlock, hw], fun f hf => ?_, hwf, hp⟩
  cases f <;> simp_all [Field.same]

/-- A block store from `I` that leaves memory (R64). -/
theorem State.storeBlock_error (s : State) (bs : List Byte) (hne : bs ≠ [])
    (h : 4096 < s.i.toNat + bs.length) :
    s.storeBlock bs = .error (latchOutOfBounds (max s.i.toNat 4096)) := by
  simp [State.storeBlock, Memory.writeBlock_error s.mem s.i.toNat bs hne h]

@[simp] theorem State.settle_ok (s t : State) : s.settle (.ok t) = .next t := rfl
@[simp] theorem State.settle_error (s : State) (f : FaultLatch) :
    s.settle (.error f) = .next (s.raise f) := rfl

/-- Everything a fetch can answer (R123, R124). -/
theorem State.fetchWord_eq (s : State) :
    s.fetchWord =
      if s.pc.toNat + 1 < 4096 then
        .ok (wordOfBytes (s.mem.peek s.pc.toNat) (s.mem.peek (s.pc.toNat + 1)))
      else .error (latchOutOfBounds (max s.pc.toNat 4096)) :=
  Memory.readWide_eq s.mem s.pc.toNat

/-- An instruction is fetched only below `0xFFF`, and is what the word there decodes to. -/
theorem State.fetchInstr_ok {s : State} {i : Instr} (h : s.fetchInstr = .ok i) :
    s.pc.toNat + 1 < 4096 ∧
      decode (wordOfBytes (s.mem.peek s.pc.toNat) (s.mem.peek (s.pc.toNat + 1))) = .ok i := by
  unfold State.fetchInstr at h
  rw [State.fetchWord_eq] at h
  split at h
  · cases h
  · next w hw =>
    split at hw
    · next hlt =>
      cases hw
      split at h
      · next hd => cases h; exact ⟨hlt, hd⟩
      · cases h
    · cases hw

/-- Sampling the inputs changes neither what is fetched nor whether the machine is halted. -/
@[simp] theorem State.fetchInstr_beginStep (s : State) : s.beginStep.fetchInstr = s.fetchInstr := rfl

/-- A memory that reads the same at `PC` gives the same instruction. -/
theorem State.fetchInstr_congr {s t : State} (hpc : t.pc = s.pc)
    (h0 : t.mem.peek s.pc.toNat = s.mem.peek s.pc.toNat)
    (h1 : t.mem.peek (s.pc.toNat + 1) = s.mem.peek (s.pc.toNat + 1)) :
    t.fetchInstr = s.fetchInstr := by
  unfold State.fetchInstr
  rw [State.fetchWord_eq, State.fetchWord_eq, hpc, h0, h1]

/-- The lowest pressed key, if any (R232). -/
theorem lowestKey_eq_some {k : BitVec 16} {id : Nat} (h : lowestKey k = some id) :
    id < 16 ∧ k.getLsbD id = true ∧ ∀ j, j < id → k.getLsbD j = false := by
  unfold lowestKey at h
  rw [List.find?_range_eq_some] at h
  exact ⟨by simpa using h.2.1, by simpa using h.1, fun j hj => by simpa using h.2.2 j hj⟩

theorem lowestKey_eq_none {k : BitVec 16} : lowestKey k = none ↔ k = 0 := by
  unfold lowestKey
  rw [List.find?_range_eq_none]
  constructor
  · intro h
    refine BitVec.eq_of_getLsbD_eq fun j hj => ?_
    simpa using h j hj
  · rintro rfl j -
    simp

/-- The end of a step that did not fault (R126, R127). -/
theorem State.endStep_of_running {s : State} {i : Instr} (h : s.halted = false) :
    (s.endStep i).dt = tickDown s.dt ∧ (s.endStep i).st = tickDown s.st ∧
      (s.endStep i).runState = (if s.waits i then .waitingForKey else .running) ∧
      s.sameBut [.dt, .st, .runState] (s.endStep i) := by
  unfold State.endStep
  rw [h]
  refine ⟨rfl, rfl, rfl, fun f hf => ?_⟩
  cases f <;> simp_all [Field.same]

/-- A step that faulted ends where it faulted. -/
theorem State.endStep_of_halted {s : State} {i : Instr} (h : s.halted = true) : s.endStep i = s := by
  simp [State.endStep, h]

/-- A loaded machine differs from `State.reset` only in what the launch supplies (R290). -/
theorem Launch.state_sameBut (l : Launch) : State.reset.sameBut [.mem, .inputs, .params] l.state := by
  intro f hf
  cases f <;> first | rfl | simp at hf

@[simp] theorem Launch.state_mem (l : Launch) : l.state.mem = Memory.ofBytes l.imageByte := rfl
@[simp] theorem Launch.state_params (l : Launch) : l.state.params = l.params := rfl
@[simp] theorem Launch.state_halted (l : Launch) : l.state.halted = false := rfl

theorem tickDown_toNat (b : Byte) : (tickDown b).toNat = b.toNat - 1 := by
  revert b; decide

end Sys2Proof.Machine
end

