-- ==== Sys2Proof/Laws/Step.lean ====
section
/-!
SUPPORT. What a step can do, once: every proof about `step` cites `step_cases` instead of unfolding it.
-/

namespace Sys2Proof.Machine

/-- A halted machine answers itself, with no strobe (R121). -/
theorem step_of_halted {s : State} (h : s.halted = true) :
    step s = .next { s with strobe := false } := by
  simp [step, h]

/-- A step whose fetch or decode fails takes that fault (R129). -/
theorem step_of_fetch_error {s : State} {f : FaultLatch} (h : s.halted = false)
    (hf : s.fetchInstr = .error f) : step s = .next (s.beginStep.raise f) := by
  simp [step, h, hf]

/-- A step that fetches `i` executes it between `beginStep` and `endStep` (R120). -/
theorem step_of_fetch_ok {s t : State} {i : Instr} (h : s.halted = false)
    (hf : s.fetchInstr = .ok i) (he : exec i s.beginStep = .next t) :
    step s = .next (t.endStep i) := by
  simp [step, h, hf, he]

/-- Everything a step that answers a next state can have done. -/
theorem step_cases {s t : State} (h : step s = .next t) :
    (s.halted = true ∧ t = { s with strobe := false }) ∨
    (s.halted = false ∧ ∃ f, s.fetchInstr = .error f ∧ t = s.beginStep.raise f) ∨
    (s.halted = false ∧ ∃ i u, s.fetchInstr = .ok i ∧ exec i s.beginStep = .next u ∧
      t = u.endStep i) := by
  unfold step at h
  split at h
  · next hh => cases h; exact .inl ⟨hh, rfl⟩
  · next hh =>
    have hh : s.halted = false := by simpa using hh
    rw [State.fetchInstr_beginStep] at h
    split at h
    · next f hf => cases h; exact .inr (.inl ⟨hh, f, hf, rfl⟩)
    · next i hf =>
      split at h
      · next u hu => cases h; exact .inr (.inr ⟨hh, i, u, hf, hu, rfl⟩)
      · cases h
      · cases h

/-- A fetch that fails latches a real fault. -/
theorem State.fetchInstr_error_code {s : State} {f : FaultLatch} (h : s.fetchInstr = .error f) :
    f.code ≠ .none := by
  unfold State.fetchInstr at h
  rw [State.fetchWord_eq] at h
  split at h
  · next g hg =>
    split at hg <;> cases hg
    cases h
    simp [latchOutOfBounds]
  · split at h
    · cases h
    · cases h; simp [latchUnknownOpcode]

end Sys2Proof.Machine
end

