-- ==== Sys2Proof/Laws/Video.lean ====
section
/-!
SUPPORT. What the blitter does to every pixel, and when it reports a collision.
-/

namespace Sys2Proof.Machine

theorem Screen.pixel_true_inside {fb : Screen} {r c : Nat} (h : fb.pixel r c = true) :
    r < 32 ∧ c < 64 := by
  unfold Screen.pixel at h
  split at h
  · assumption
  · cases h

@[simp] theorem Screen.pixel_blank (r c : Nat) : blankScreen.pixel r c = false := by
  unfold Screen.pixel blankScreen
  split <;> simp

/-- Two framebuffers with the same pixels are the same. -/
theorem Screen.ext_pixel {fb fb' : Screen} (h : ∀ r c, r < 32 → c < 64 → fb.pixel r c = fb'.pixel r c) :
    fb = fb' := by
  refine Vector.ext fun r hr => Vector.ext fun c hc => ?_
  simpa [Screen.pixel, hr, hc] using h r c hr hc

/-- One sprite pixel: where it lands inside the grid it is XORed in, every other pixel is unchanged. -/
theorem pixel_blitPixel (r c : Nat) (bit : Bool) (acc : Screen × Bool) (r' c' : Nat) :
    (blitPixel r c bit acc).1.pixel r' c' =
      if r' = r ∧ c' = c ∧ r < 32 ∧ c < 64 then (acc.1.pixel r' c' ^^ bit)
      else acc.1.pixel r' c' := by
  unfold blitPixel
  split
  · next h =>
    obtain ⟨hr, hc⟩ := h
    by_cases hin : r' < 32 ∧ c' < 64
    · by_cases h1 : r' = r
      · subst h1
        by_cases h2 : c' = c
        · subst h2; simp [Screen.pixel, hin]
        · simp [Screen.pixel, hin, h2, Ne.symm h2]
      · simp [Screen.pixel, hin, h1, Ne.symm h1]
    · have : ¬ (r' = r ∧ c' = c ∧ r < 32 ∧ c < 64) := by omega
      simp [Screen.pixel, hin, this]
  · next h =>
    have : ¬ (r' = r ∧ c' = c ∧ r < 32 ∧ c < 64) := by omega
    simp [this]

/-- One sprite pixel reports a collision iff it turns a lit pixel off. -/
theorem collided_blitPixel (r c : Nat) (bit : Bool) (acc : Screen × Bool) :
    (blitPixel r c bit acc).2 = true ↔
      acc.2 = true ∨ (acc.1.pixel r c = true ∧ bit = true) := by
  unfold blitPixel
  split
  · next h => simp [Screen.pixel, h]
  · next h => simp [Screen.pixel, h]

/-- The first `n` pixels of a sprite row. -/
def blitCols (r px n : Nat) (b : Byte) (acc : Screen × Bool) : Screen × Bool :=
  (List.range n).foldl (fun acc col => blitPixel r (px + col) (spriteBit b col) acc) acc

theorem blitCols_succ (r px n : Nat) (b : Byte) (acc : Screen × Bool) :
    blitCols r px (n + 1) b acc = blitPixel r (px + n) (spriteBit b n) (blitCols r px n b acc) := by
  simp [blitCols, List.range_succ]

theorem pixel_blitCols (r px n : Nat) (b : Byte) (acc : Screen × Bool) (r' c' : Nat)
    (hr' : r' < 32) (hc' : c' < 64) :
    (blitCols r px n b acc).1.pixel r' c' =
      if r' = r ∧ px ≤ c' ∧ c' < px + n then (acc.1.pixel r' c' ^^ spriteBit b (c' - px))
      else acc.1.pixel r' c' := by
  induction n with
  | zero => rw [if_neg (by omega)]; rfl
  | succ n ih =>
    rw [blitCols_succ, pixel_blitPixel, ih]
    by_cases h : r' = r ∧ c' = px + n
    · obtain ⟨rfl, rfl⟩ := h
      rw [if_pos (by omega), if_neg (by omega), if_pos (by omega), Nat.add_sub_cancel_left]
    · rw [if_neg (by omega)]
      by_cases h2 : r' = r ∧ px ≤ c' ∧ c' < px + n
      · rw [if_pos h2, if_pos (by omega)]
      · rw [if_neg h2, if_neg (by omega)]

theorem collided_blitCols (r px n : Nat) (b : Byte) (acc : Screen × Bool) :
    (blitCols r px n b acc).2 = true ↔
      acc.2 = true ∨ ∃ col, col < n ∧ acc.1.pixel r (px + col) = true ∧ spriteBit b col = true := by
  induction n with
  | zero => simp [blitCols]
  | succ n ih =>
    have hold : (blitCols r px n b acc).1.pixel r (px + n) = acc.1.pixel r (px + n) := by
      by_cases hin : r < 32 ∧ px + n < 64
      · rw [pixel_blitCols r px n b acc r (px + n) hin.1 hin.2, if_neg (by omega)]
      · simp [Screen.pixel, hin]
    rw [blitCols_succ, collided_blitPixel, ih, hold]
    constructor
    · rintro ((h | ⟨col, hlt, h⟩) | h)
      · exact .inl h
      · exact .inr ⟨col, by omega, h⟩
      · exact .inr ⟨n, by omega, h⟩
    · rintro (h | ⟨col, hlt, h⟩)
      · exact .inl (.inl h)
      · rcases Nat.lt_succ_iff_lt_or_eq.1 hlt with hlt | rfl
        · exact .inl (.inr ⟨col, hlt, h⟩)
        · exact .inr h

theorem blitRow_eq (r px : Nat) (b : Byte) (acc : Screen × Bool) :
    blitRow r px b acc = blitCols r px 8 b acc := rfl

theorem spriteAt_cons (b : Byte) (bs : List Byte) (px r r' c' : Nat) :
    spriteAt (b :: bs) px r r' c' =
      if r' = r ∧ px ≤ c' ∧ c' < px + 8 then spriteBit b (c' - px)
      else spriteAt bs px (r + 1) r' c' := by
  by_cases h : r' = r
  · subst h
    by_cases h2 : px ≤ c' ∧ c' < px + 8 <;> simp [spriteAt, spriteBit, h2]
  · rw [if_neg (by omega)]
    by_cases h3 : r ≤ r'
    · have h4 : r' - r = (r' - (r + 1)) + 1 := by omega
      have h5 : r + 1 ≤ r' := by omega
      simp [spriteAt, h3, h4, h5]
    · have h5 : ¬ r + 1 ≤ r' := by omega
      simp [spriteAt, h3, h5]

theorem spriteAt_above (bs : List Byte) {px r r' c' : Nat} (h : r' < r) :
    spriteAt bs px r r' c' = false := by
  simp [spriteAt, Nat.not_le.2 h]

/-- Every pixel after a blit is XORed with the sprite's bit that covers it. -/
theorem pixel_blitRows (r px : Nat) (bytes : List Byte) (acc : Screen × Bool) (r' c' : Nat)
    (hr' : r' < 32) (hc' : c' < 64) :
    (blitRows r px bytes acc).1.pixel r' c' = (acc.1.pixel r' c' ^^ spriteAt bytes px r r' c') := by
  induction bytes generalizing r acc with
  | nil => simp [blitRows, spriteAt]
  | cons b bs ih =>
    rw [blitRows, ih, blitRow_eq, pixel_blitCols r px 8 b acc r' c' hr' hc', spriteAt_cons]
    split
    · next h => rw [spriteAt_above bs (by omega)]; simp
    · rfl

/-- A blit reports a collision iff some sprite bit covers a pixel that was lit before it. -/
theorem collided_blitRows (r px : Nat) (bytes : List Byte) (acc : Screen × Bool) :
    (blitRows r px bytes acc).2 = true ↔
      acc.2 = true ∨ ∃ r' c', acc.1.pixel r' c' = true ∧ spriteAt bytes px r r' c' = true := by
  induction bytes generalizing r acc with
  | nil => simp [blitRows, spriteAt]
  | cons b bs ih =>
    rw [blitRows, ih, blitRow_eq, collided_blitCols]
    constructor
    · rintro ((h | ⟨col, hlt, hp, hb⟩) | ⟨r', c', hp, hs⟩)
      · exact .inl h
      · refine .inr ⟨r, px + col, hp, ?_⟩
        rw [spriteAt_cons, if_pos (by omega), Nat.add_sub_cancel_left]; exact hb
      · have hin := Screen.pixel_true_inside hp
        have hr : ¬ r' = r := by
          rintro rfl
          rw [spriteAt_above bs (by omega)] at hs
          cases hs
        rw [pixel_blitCols r px 8 b acc r' c' hin.1 hin.2, if_neg (by omega)] at hp
        refine .inr ⟨r', c', hp, ?_⟩
        rw [spriteAt_cons, if_neg (by omega)]; exact hs
    · rintro (h | ⟨r', c', hp, hs⟩)
      · exact .inl (.inl h)
      · rw [spriteAt_cons] at hs
        split at hs
        · next h =>
          refine .inl (.inr ⟨c' - px, by omega, ?_, hs⟩)
          rw [← h.1, Nat.add_sub_cancel' h.2.1]; exact hp
        · next h =>
          have hin := Screen.pixel_true_inside hp
          refine .inr ⟨r', c', ?_, hs⟩
          rw [pixel_blitCols r px 8 b acc r' c' hin.1 hin.2, if_neg]
          · exact hp
          · rintro ⟨rfl, -⟩
            rw [spriteAt_above bs (by omega)] at hs
            cases hs

/-- What a blit does to every pixel (R213, R214). -/
theorem pixel_blit (fb : Screen) (px py : Nat) (bytes : List Byte) (r c : Nat) (hr : r < 32)
    (hc : c < 64) :
    (blit fb px py bytes).1.pixel r c = (fb.pixel r c ^^ spriteAt bytes px py r c) :=
  pixel_blitRows py px bytes (fb, false) r c hr hc

/-- When a blit reports a collision (R215). -/
theorem collided_blit (fb : Screen) (px py : Nat) (bytes : List Byte) :
    (blit fb px py bytes).2 = true ↔
      ∃ r c, fb.pixel r c = true ∧ spriteAt bytes px py r c = true := by
  simp [blit, collided_blitRows]

end Sys2Proof.Machine
end

