-- ==== Sys2Proof/Laws/Exec.lean ====
section
/-!
SUPPORT. What each meaning that can fault or wait answers, and once for all instructions what `exec`
can do: take a real fault, or change only the fields the instruction writes.
-/

namespace Sys2Proof.Machine

/-- `Return` with an address to pop. -/
theorem execReturn_ok (s : State) (h : 0 < s.sp.val) :
    ∃ t, execReturn s = .next t ∧ s.stack[s.sp.val - 1]? = some t.pc ∧ t.sp.val = s.sp.val - 1 ∧
      t.mem = s.mem ∧ s.sameBut [.sp, .pc] t := by
  rcases s.pop_eq with ⟨h', u, hu, hsp, hmem, hf⟩ | ⟨h0, -⟩
  · refine ⟨u.jumpTo (s.stack[s.sp.val - 1]'(by omega)), by simp [execReturn, hu, Except.map], ?_, hsp,
      hmem, fun f hm => ?_⟩
    · simp
    · have := hf f (by simp_all)
      cases f <;> simp_all [Field.same]
  · omega

/-- `Return` on the empty stack. -/
theorem execReturn_fault (s : State) (h : s.sp.val = 0) :
    execReturn s = .next (s.raise latchStackUnderflow) := by
  rcases s.pop_eq with ⟨h', -⟩ | ⟨-, he⟩
  · omega
  · simp [execReturn, he, Except.map]

/-- `Call` with room on the stack. -/
theorem execCall_ok (s : State) (nnn : Addr) (h : s.sp.val < 16) :
    ∃ t, execCall nnn s = .next t ∧ t.sp.val = s.sp.val + 1 ∧ t.pc = addrWord nnn ∧
      (∀ j (hj : j < 16), t.stack[j] = if j = s.sp.val then s.pc + 2 else s.stack[j]) ∧
      t.mem = s.mem ∧ s.sameBut [.sp, .stack, .pc] t := by
  rcases s.push_eq (s.pc + 2) with ⟨-, u, hu, hsp, hst, hmem, hf⟩ | ⟨h', -⟩
  · refine ⟨u.jumpTo (addrWord nnn), by rw [execCall, hu]; rfl, hsp, rfl, hst, hmem, fun f hm => ?_⟩
    have := hf f (by simp_all)
    cases f <;> simp_all [Field.same]
  · omega

/-- `Call` on the full stack. -/
theorem execCall_fault (s : State) (nnn : Addr) (h : s.sp.val = 16) :
    execCall nnn s = .next (s.raise latchStackOverflow) := by
  rcases s.push_eq (s.pc + 2) with ⟨h', -⟩ | ⟨-, he⟩
  · omega
  · rw [execCall, he]; rfl

/-- The bytes of a block at `I`. -/
def State.blockAt (s : State) (n : Nat) : List Byte :=
  (List.range n).map fun j => s.mem.peek (s.i.toNat + j)

@[simp] theorem State.blockAt_getElem? (s : State) (n j : Nat) (h : j < n) :
    (s.blockAt n)[j]? = some (s.mem.peek (s.i.toNat + j)) := by
  simp [State.blockAt, h]

/-- Everything `DrawSprite` can answer. -/
theorem execDrawSprite_eq (s : State) (x y : Reg) (n : Nibble) :
    execDrawSprite x y n s =
      if n.toNat = 0 ∨ s.i.toNat + n.toNat ≤ 4096 then .next (s.drawBytes x y (s.blockAt n.toNat))
      else .next (s.raise (latchOutOfBounds (max s.i.toNat 4096))) := by
  rw [execDrawSprite, State.loadBlock_eq]
  split <;> rfl

/-- Everything `LoadRegs` can answer. -/
theorem execLoadRegs_eq (s : State) (x : Reg) :
    execLoadRegs x s =
      if s.i.toNat + x.val < 4096 then .next (s.setRegBlock (s.blockAt (x.val + 1))).advance
      else .next (s.raise (latchOutOfBounds (max s.i.toNat 4096))) := by
  rw [execLoadRegs, State.loadBlock_eq]
  by_cases h : s.i.toNat + x.val < 4096
  · rw [if_pos h, if_pos (by omega)]; rfl
  · rw [if_neg h, if_neg (by omega)]; rfl

/-- A store of a block that stays in memory, then `PC + 2`. -/
theorem State.storeThenAdvance_ok (s : State) (bs : List Byte)
    (h : bs = [] ∨ s.i.toNat + bs.length ≤ 4096) :
    ∃ t, s.settle ((s.storeBlock bs).map State.advance) = .next t ∧ t.pc = s.pc + 2 ∧
      s.sameBut [.mem, .pc] t ∧ (s.mem.wf → t.mem.wf) ∧
      ∀ b, t.mem.peek b = s.byteAfterStore bs b := by
  obtain ⟨u, hu, hf, hwf, hp⟩ := s.storeBlock_ok bs h
  refine ⟨u.advance, by rw [hu]; rfl, ?_, fun f hm => ?_, hwf, hp⟩
  · have := hf .pc (by simp)
    simp_all [Field.same]
  · have := hf f (by simp_all)
    cases f <;> simp_all [Field.same]

/-- A store of a block that leaves memory. -/
theorem State.storeThenAdvance_fault (s : State) (bs : List Byte) (hne : bs ≠ [])
    (h : 4096 < s.i.toNat + bs.length) :
    s.settle ((s.storeBlock bs).map State.advance) =
      .next (s.raise (latchOutOfBounds (max s.i.toNat 4096))) := by
  rw [s.storeBlock_error bs hne h]; rfl

theorem State.regBlock_ne_nil (s : State) (x : Reg) : s.regBlock x ≠ [] := by
  intro h
  have := congrArg List.length h
  simp at this

/-- `StoreRegs` that stays in memory. -/
theorem execStoreRegs_ok (s : State) (x : Reg) (h : s.i.toNat + x.val < 4096) :
    ∃ t, execStoreRegs x s = .next t ∧ t.pc = s.pc + 2 ∧ s.sameBut [.mem, .pc] t ∧
      (s.mem.wf → t.mem.wf) ∧
      (∀ r : Reg, r ≤ x → t.mem.peek (s.i.toNat + r.val) = s.reg r) ∧
      s.sameMemOutside s.i.toNat (x.val + 1) t := by
  obtain ⟨t, ht, hpc, hf, hwf, hp⟩ :=
    s.storeThenAdvance_ok (s.regBlock x) (.inr (by rw [State.regBlock_length]; omega))
  simp only [State.byteAfterStore, State.regBlock_length] at hp
  refine ⟨t, ht, hpc, hf, hwf, fun r hr => ?_, fun b hb => ?_⟩
  · have hr' : r.val < x.val + 1 := Nat.lt_succ_of_le hr
    rw [hp, if_pos (by omega), Nat.add_sub_cancel_left, State.regBlock_getElem? s x r hr]
    rfl
  · rw [hp, if_neg (by omega)]

/-- `StoreRegs` that leaves memory. -/
theorem execStoreRegs_fault (s : State) (x : Reg) (h : 4096 ≤ s.i.toNat + x.val) :
    execStoreRegs x s = .next (s.raise (latchOutOfBounds (max s.i.toNat 4096))) :=
  s.storeThenAdvance_fault _ (s.regBlock_ne_nil x) (by rw [State.regBlock_length]; omega)

/-- `StoreBCD` that stays in memory. -/
theorem execStoreBCD_ok (s : State) (x : Reg) (h : s.i.toNat + 2 < 4096) :
    ∃ t, execStoreBCD x s = .next t ∧ t.pc = s.pc + 2 ∧ s.sameBut [.mem, .pc] t ∧
      (s.mem.wf → t.mem.wf) ∧
      ∀ b, t.mem.peek b = s.byteAfterStore (bcdDigits (s.reg x)) b :=
  s.storeThenAdvance_ok (bcdDigits (s.reg x)) (.inr (by simp [bcdDigits]; omega))

/-- `StoreBCD` that leaves memory. -/
theorem execStoreBCD_fault (s : State) (x : Reg) (h : 4096 ≤ s.i.toNat + 2) :
    execStoreBCD x s = .next (s.raise (latchOutOfBounds (max s.i.toNat 4096))) :=
  s.storeThenAdvance_fault _ (by simp [bcdDigits]) (by simp [bcdDigits]; omega)

/-- `WaitKey` with no key pressed. -/
theorem State.latchKey_none (s : State) (x : Reg) (h : s.k = 0) : s.latchKey x = s := by
  simp [State.latchKey, lowestKey_eq_none.2 h]

/-- `WaitKey` with some key pressed. -/
theorem State.latchKey_some (s : State) (x : Reg) (h : s.k ≠ 0) :
    ∃ id, lowestKey s.k = some id ∧ s.latchKey x = (s.setReg x (BitVec.ofNat 8 id)).advance := by
  rcases hk : lowestKey s.k with _ | id
  · exact absurd (lowestKey_eq_none.1 hk) h
  · exact ⟨id, rfl, by simp [State.latchKey, hk]⟩

/-- The fields an instruction that does not fault can change (R133, R174). -/
def fieldsWritten (i : Instr) : List Field :=
  match i with
  | .clearScreen => [.fb, .pc]
  | .ret => [.sp, .pc]
  | .jump _ | .jumpV0 _ => [.pc]
  | .call _ => [.sp, .stack, .pc]
  | .skipEqImm _ _ | .skipNeqImm _ _ | .skipEqReg _ _ | .skipNeqReg _ _ _ | .skipKeyDown _
  | .skipKeyUp _ => [.pc]
  | .setImm _ _ | .addImm _ _ | .copy _ _ | .or _ _ | .and _ _ | .xor _ _ | .addReg _ _
  | .subXY _ _ | .shR _ _ | .subYX _ _ | .shL _ _ | .random _ _ | .getDelay _ | .waitKey _
  | .loadRegs _ => [.v, .pc]
  | .setIndex _ | .fontAddr _ => [.i, .pc]
  | .addIndex _ => [.i, .v, .pc]
  | .drawSprite _ _ _ => [.v, .fb, .strobe, .pc]
  | .setDelay _ => [.dt, .pc]
  | .setSound _ => [.st, .pc]
  | .storeBCD _ | .storeRegs _ => [.mem, .pc]

/-- A latch the machine raises: a real fault, with a legal info. -/
def FaultLatch.real (f : FaultLatch) : Prop := f.code ≠ .none ∧ f.legal

theorem latchStackOverflow_real : latchStackOverflow.real := ⟨by decide, rfl⟩
theorem latchStackUnderflow_real : latchStackUnderflow.real := ⟨by decide, rfl⟩

theorem latchOutOfBounds_real {a : Nat} (h : a < 65536) :
    (latchOutOfBounds (max a 4096)).real := by
  refine ⟨by simp [latchOutOfBounds], ?_⟩
  show 4096 ≤ (BitVec.ofNat 16 (max a 4096)).toNat
  rw [BitVec.toNat_ofNat, Nat.mod_eq_of_lt (by omega)]
  omega

theorem State.raise_halted {s : State} {f : FaultLatch} (h : f.real) : (s.raise f).halted = true := by
  simpa [State.halted] using h.1

/-- Everything `exec` can do: take a real fault, or change only the fields its instruction writes,
keeping the canonical form of memory. -/
theorem exec_cases (i : Instr) (s : State) :
    (∃ f : FaultLatch, f.real ∧ exec i s = .next (s.raise f)) ∨
    (∃ t, exec i s = .next t ∧ s.sameBut (fieldsWritten i) t ∧ (s.mem.wf → t.mem.wf)) := by
  have hi := s.i.isLt
  cases i
  case ret =>
    rcases Nat.eq_zero_or_pos s.sp.val with h | h
    · exact .inl ⟨_, latchStackUnderflow_real, execReturn_fault s h⟩
    · obtain ⟨t, ht, -, -, hmem, hf⟩ := execReturn_ok s h
      exact .inr ⟨t, ht, hf, fun hm => hmem ▸ hm⟩
  case call nnn =>
    rcases Nat.lt_or_ge s.sp.val 16 with h | h
    · obtain ⟨t, ht, -, -, -, hmem, hf⟩ := execCall_ok s nnn h
      exact .inr ⟨t, ht, hf, fun hm => hmem ▸ hm⟩
    · exact .inl ⟨_, latchStackOverflow_real, execCall_fault s nnn (by omega)⟩
  case drawSprite x y n =>
    simp only [exec, execDrawSprite_eq]
    split
    · exact .inr ⟨_, rfl, fun f hf => by cases f <;> simp_all [Field.same, fieldsWritten], id⟩
    · exact .inl ⟨_, latchOutOfBounds_real hi, rfl⟩
  case loadRegs x =>
    simp only [exec, execLoadRegs_eq]
    split
    · exact .inr ⟨_, rfl, fun f hf => by cases f <;> simp_all [Field.same, fieldsWritten], id⟩
    · exact .inl ⟨_, latchOutOfBounds_real hi, rfl⟩
  case storeRegs x =>
    rcases Nat.lt_or_ge (s.i.toNat + x.val) 4096 with h | h
    · obtain ⟨t, ht, -, hf, hwf, -⟩ := execStoreRegs_ok s x h
      exact .inr ⟨t, ht, hf, hwf⟩
    · exact .inl ⟨_, latchOutOfBounds_real hi, execStoreRegs_fault s x h⟩
  case storeBCD x =>
    rcases Nat.lt_or_ge (s.i.toNat + 2) 4096 with h | h
    · obtain ⟨t, ht, -, hf, hwf, -⟩ := execStoreBCD_ok s x h
      exact .inr ⟨t, ht, hf, hwf⟩
    · exact .inl ⟨_, latchOutOfBounds_real hi, execStoreBCD_fault s x h⟩
  case waitKey x =>
    refine .inr ⟨s.latchKey x, rfl, ?_⟩
    by_cases h : s.k = 0
    · rw [State.latchKey_none s x h]
      exact ⟨fun f _ => by cases f <;> simp [Field.same], id⟩
    · obtain ⟨id, -, he⟩ := State.latchKey_some s x h
      rw [he]
      exact ⟨fun f hf => by cases f <;> simp_all [Field.same, fieldsWritten], fun hm => hm⟩
  all_goals
    exact .inr ⟨_, rfl, fun f hf => by cases f <;> simp_all [Field.same, fieldsWritten], fun hm => hm⟩

end Sys2Proof.Machine
end

