-- ==== Sys2Proof/Laws/PerInstr.lean ====
section
/-!
SUPPORT. Per instruction: the word of an instruction selects the row of the opcode map that stands for
it (R94, R100), whatever its operands.
-/

namespace Sys2Proof.Laws.SelectsItsRow

/-- The row of the opcode map an instruction stands in (R95). -/
def row (i : Instr) : Nat :=
  match i with
  | .clearScreen => 0
  | .ret => 1
  | .jump _ => 2
  | .call _ => 3
  | .skipEqImm _ _ => 4
  | .skipNeqImm _ _ => 5
  | .skipEqReg _ _ => 6
  | .setImm _ _ => 7
  | .addImm _ _ => 8
  | .copy _ _ => 9
  | .or _ _ => 10
  | .and _ _ => 11
  | .xor _ _ => 12
  | .addReg _ _ => 13
  | .subXY _ _ => 14
  | .shR _ _ => 15
  | .subYX _ _ => 16
  | .shL _ _ => 17
  | .skipNeqReg _ _ _ => 18
  | .setIndex _ => 19
  | .jumpV0 _ => 20
  | .random _ _ => 21
  | .drawSprite _ _ _ => 22
  | .skipKeyDown _ => 23
  | .skipKeyUp _ => 24
  | .getDelay _ => 25
  | .waitKey _ => 26
  | .setDelay _ => 27
  | .setSound _ => 28
  | .addIndex _ => 29
  | .fontAddr _ => 30
  | .storeBCD _ => 31
  | .storeRegs _ => 32
  | .loadRegs _ => 33

/-- The instruction's word selects the instruction's row. -/
def Statement (i : Instr) : Prop :=
  ∃ r, opcodeMap[row i]? = some r ∧ r.selects (encode i) = true

/-- And distributes over or on the left operand. -/
theorem or_masked (a b m : Word) : (a ||| b) &&& m = a &&& m ||| b &&& m := by
  rw [BitVec.and_comm, BitVec.and_or_distrib_left, BitVec.and_comm m a, BitVec.and_comm m b]

/-- The field `nnn` lies outside the mask `F000`. -/
theorem nnn_outside (nnn : Addr) : nnn.setWidth 16 &&& (0xF000 : Word) = 0#16 := by
  refine BitVec.eq_of_getLsbD_eq fun j hj => ?_
  simp only [BitVec.getLsbD_and, BitVec.getLsbD_setWidth, BitVec.getLsbD_zero]
  by_cases hj' : j < 12
  · rw [show (0xF000 : Word).getLsbD j = false by interval_cases j <;> rfl, Bool.and_false]
  · rw [BitVec.getLsbD_of_ge nnn j (by omega), Bool.and_false, Bool.false_and]

/-- The field `x` lies outside a mask that has no bit in the second digit. -/
theorem x_masked (m : Word) (hm : m &&& 0x0F00 = 0#16) (x : Reg) :
    BitVec.ofNat 16 x.val <<< 8 &&& m = 0#16 := by
  have hx : BitVec.ofNat 16 x.val <<< 8 &&& (0x0F00 : Word) = BitVec.ofNat 16 x.val <<< 8 := by
    revert x; decide
  rw [← hx, BitVec.and_assoc, BitVec.and_comm (0x0F00 : Word), hm, BitVec.and_zero]

/-- The field `y` lies outside a mask that has no bit in the third digit. -/
theorem y_masked (m : Word) (hm : m &&& 0x00F0 = 0#16) (y : Reg) :
    BitVec.ofNat 16 y.val <<< 4 &&& m = 0#16 := by
  have hy : BitVec.ofNat 16 y.val <<< 4 &&& (0x00F0 : Word) = BitVec.ofNat 16 y.val <<< 4 := by
    revert y; decide
  rw [← hy, BitVec.and_assoc, BitVec.and_comm (0x00F0 : Word), hm, BitVec.and_zero]

/-- The field `kk` lies outside the mask `F000`. -/
theorem kk_masked (kk : Byte) : kk.setWidth 16 &&& (0xF000 : Word) = 0#16 := by
  revert kk; decide

/-- The field `n` lies outside the mask `F000`. -/
theorem n_masked (n : Nibble) : n.setWidth 16 &&& (0xF000 : Word) = 0#16 := by
  revert n; decide

theorem nnn_masked (v : Word) (hv : v &&& 0xF000 = v) (nnn : Addr) :
    encodeNNN v nnn &&& 0xF000 = v := by
  simp only [encodeNNN, or_masked, hv, nnn_outside, BitVec.or_zero]

theorem xkk_masked (v : Word) (hv : v &&& 0xF000 = v) (x : Reg) (kk : Byte) :
    encodeXKK v x kk &&& 0xF000 = v := by
  simp only [encodeXKK, or_masked, hv, x_masked 0xF000 (by decide), kk_masked, BitVec.or_zero]

theorem xyn_masked (v : Word) (hv : v &&& 0xF000 = v) (x y : Reg) (n : Nibble) :
    encodeXYN v x y n &&& 0xF000 = v := by
  simp only [encodeXYN, or_masked, hv, x_masked 0xF000 (by decide), y_masked 0xF000 (by decide),
    n_masked, BitVec.or_zero]

theorem xy_masked (v : Word) (hv : v &&& 0xF00F = v) (x y : Reg) :
    encodeXY v x y &&& 0xF00F = v := by
  simp only [encodeXY, or_masked, hv, x_masked 0xF00F (by decide), y_masked 0xF00F (by decide),
    BitVec.or_zero]

theorem x_only_masked (v : Word) (hv : v &&& 0xF0FF = v) (x : Reg) :
    encodeX v x &&& 0xF0FF = v := by
  simp only [encodeX, or_masked, hv, x_masked 0xF0FF (by decide), BitVec.or_zero]

/-- The row and the masked word give the statement. -/
theorem of_masked {i : Instr} {r : OpRow} (h : opcodeMap[row i]? = some r)
    (hw : encode i &&& r.mask = r.value) : Statement i :=
  ⟨r, h, by simpa [OpRow.selects] using hw⟩

theorem clearScreen : Statement .clearScreen := of_masked rfl (by decide)
theorem ret : Statement .ret := of_masked rfl (by decide)
theorem jump (nnn : Addr) : Statement (.jump nnn) :=
  of_masked rfl (nnn_masked 0x1000 (by decide) nnn)
theorem call (nnn : Addr) : Statement (.call nnn) :=
  of_masked rfl (nnn_masked 0x2000 (by decide) nnn)
theorem skipEqImm (x : Reg) (kk : Byte) : Statement (.skipEqImm x kk) :=
  of_masked rfl (xkk_masked 0x3000 (by decide) x kk)
theorem skipNeqImm (x : Reg) (kk : Byte) : Statement (.skipNeqImm x kk) :=
  of_masked rfl (xkk_masked 0x4000 (by decide) x kk)
theorem skipEqReg (x y : Reg) : Statement (.skipEqReg x y) :=
  of_masked rfl (xy_masked 0x5000 (by decide) x y)
theorem setImm (x : Reg) (kk : Byte) : Statement (.setImm x kk) :=
  of_masked rfl (xkk_masked 0x6000 (by decide) x kk)
theorem addImm (x : Reg) (kk : Byte) : Statement (.addImm x kk) :=
  of_masked rfl (xkk_masked 0x7000 (by decide) x kk)
theorem copy (x y : Reg) : Statement (.copy x y) :=
  of_masked rfl (xy_masked 0x8000 (by decide) x y)
theorem or (x y : Reg) : Statement (.or x y) :=
  of_masked rfl (xy_masked 0x8001 (by decide) x y)
theorem and (x y : Reg) : Statement (.and x y) :=
  of_masked rfl (xy_masked 0x8002 (by decide) x y)
theorem xor (x y : Reg) : Statement (.xor x y) :=
  of_masked rfl (xy_masked 0x8003 (by decide) x y)
theorem addReg (x y : Reg) : Statement (.addReg x y) :=
  of_masked rfl (xy_masked 0x8004 (by decide) x y)
theorem subXY (x y : Reg) : Statement (.subXY x y) :=
  of_masked rfl (xy_masked 0x8005 (by decide) x y)
theorem shR (x y : Reg) : Statement (.shR x y) :=
  of_masked rfl (xy_masked 0x8006 (by decide) x y)
theorem subYX (x y : Reg) : Statement (.subYX x y) :=
  of_masked rfl (xy_masked 0x8007 (by decide) x y)
theorem shL (x y : Reg) : Statement (.shL x y) :=
  of_masked rfl (xy_masked 0x800E (by decide) x y)
theorem skipNeqReg (x y : Reg) (n : Nibble) : Statement (.skipNeqReg x y n) :=
  of_masked rfl (xyn_masked 0x9000 (by decide) x y n)
theorem setIndex (nnn : Addr) : Statement (.setIndex nnn) :=
  of_masked rfl (nnn_masked 0xA000 (by decide) nnn)
theorem jumpV0 (nnn : Addr) : Statement (.jumpV0 nnn) :=
  of_masked rfl (nnn_masked 0xB000 (by decide) nnn)
theorem random (x : Reg) (kk : Byte) : Statement (.random x kk) :=
  of_masked rfl (xkk_masked 0xC000 (by decide) x kk)
theorem drawSprite (x y : Reg) (n : Nibble) : Statement (.drawSprite x y n) :=
  of_masked rfl (xyn_masked 0xD000 (by decide) x y n)
theorem skipKeyDown (x : Reg) : Statement (.skipKeyDown x) :=
  of_masked rfl (x_only_masked 0xE09E (by decide) x)
theorem skipKeyUp (x : Reg) : Statement (.skipKeyUp x) :=
  of_masked rfl (x_only_masked 0xE0A1 (by decide) x)
theorem getDelay (x : Reg) : Statement (.getDelay x) :=
  of_masked rfl (x_only_masked 0xF007 (by decide) x)
theorem waitKey (x : Reg) : Statement (.waitKey x) :=
  of_masked rfl (x_only_masked 0xF00A (by decide) x)
theorem setDelay (x : Reg) : Statement (.setDelay x) :=
  of_masked rfl (x_only_masked 0xF015 (by decide) x)
theorem setSound (x : Reg) : Statement (.setSound x) :=
  of_masked rfl (x_only_masked 0xF018 (by decide) x)
theorem addIndex (x : Reg) : Statement (.addIndex x) :=
  of_masked rfl (x_only_masked 0xF01E (by decide) x)
theorem fontAddr (x : Reg) : Statement (.fontAddr x) :=
  of_masked rfl (x_only_masked 0xF029 (by decide) x)
theorem storeBCD (x : Reg) : Statement (.storeBCD x) :=
  of_masked rfl (x_only_masked 0xF033 (by decide) x)
theorem storeRegs (x : Reg) : Statement (.storeRegs x) :=
  of_masked rfl (x_only_masked 0xF055 (by decide) x)
theorem loadRegs (x : Reg) : Statement (.loadRegs x) :=
  of_masked rfl (x_only_masked 0xF065 (by decide) x)

end Sys2Proof.Laws.SelectsItsRow
end

