-- ==== Sys2Proof/Tests/Slice0.lean ====
section
/-!
SUPPORT. Tests of the model, and for each obligation with hypotheses a concrete input that meets them.

Expected results are the spec's own vectors (`spec/95_test_vectors.md`, named in each comment) or are
worked out by hand from the rule named there; none is the model's own answer.
-/

namespace Sys2Proof.Tests

open Sys2Proof.Machine

/-! ### Helpers -/

/-- The next state, if the answer is one. -/
def outcomeState (o : Host.Outcome State Fault Refusal) : Option State :=
  match o with
  | .next t => some t
  | .fault _ => none
  | .refused _ => none

/-- One step of `s` with the word `w` at its `PC`. -/
def stepOn (s : State) (w : Nat) : Option State := outcomeState (step (s.withFetchWord 16 w))

/-- `s` with the byte `b` at the address `a`. -/
def put (s : State) (a : Nat) (b : Byte) : State := { s with mem := s.mem.poke a b }

/-- `s` with the pixel in row `r`, column `c` lit. -/
def light (s : State) (r c : Nat) : State := { s with fb := (blitPixel r c true (s.fb, false)).1 }

/-- `s` with the host's input of the next step named. -/
def given (s : State) (keys : BitVec 16) (rnd : Byte) : State :=
  { s with inputs := [{ keys := keys, rnd := rnd }] }

/-- Reset with two registers set. -/
def regs2 (x : Reg) (a : Byte) (y : Reg) (b : Byte) : State := (State.reset.setReg x a).setReg y b

/-! ### Well-formedness: an ill-formed term for each check -/

theorem test_canonical_refuses : (Instr.skipNeqReg 1 2 5).canonical = false := by decide

theorem test_canonical_accepts : (Instr.skipNeqReg 1 2 0).canonical = true := by decide

theorem test_program_too_long : programFits (List.replicate 3585 0) = false := by
  rw [programFits, List.length_replicate]
  decide

theorem test_program_fits : programFits (List.replicate 3584 0) = true := by
  rw [programFits, List.length_replicate]
  decide

/-! ### Decoding: a word of every row, written from the opcode map (R95) -/

/-- One word of each of the seven families, bit by bit: `1nnn` with `nnn = ABC`; `6xkk` with `x = A`,
`kk = 77`; `Fx33` with `x = 4`; `Dxyn` with `1, 2, 5`; `ExA1` with `x = 2`; `Fx18` with `x = 3`;
`00EE`. -/
theorem test_decode_bit_by_bit :
    decode 0b0001101010111100 = .ok (.jump 0b101010111100) ∧
    decode 0b0110101001110111 = .ok (.setImm 10 0b01110111) ∧
    decode 0b1111010000110011 = .ok (.storeBCD 4) ∧
    decode 0b1101000100100101 = .ok (.drawSprite 1 2 0b0101) ∧
    decode 0b1110001010100001 = .ok (.skipKeyUp 2) ∧
    decode 0b1111001100011000 = .ok (.setSound 3) ∧
    decode 0b0000000011101110 = .ok .ret := by decide

theorem test_decode_control :
    decode 0x00EE = .ok .ret ∧ decode 0x1ABC = .ok (.jump 0xABC) ∧
    decode 0x2300 = .ok (.call 0x300) ∧ decode 0x332A = .ok (.skipEqImm 3 0x2A) ∧
    decode 0x4B7C = .ok (.skipNeqImm 0xB 0x7C) ∧ decode 0x5120 = .ok (.skipEqReg 1 2) ∧
    decode 0x912F = .ok (.skipNeqReg 1 2 0xF) ∧ decode 0xBFFF = .ok (.jumpV0 0xFFF) := by decide

theorem test_decode_alu :
    decode 0x6A77 = .ok (.setImm 0xA 0x77) ∧ decode 0x7302 = .ok (.addImm 3 2) ∧
    decode 0x8120 = .ok (.copy 1 2) ∧ decode 0x8341 = .ok (.or 3 4) ∧
    decode 0x8562 = .ok (.and 5 6) ∧ decode 0x8783 = .ok (.xor 7 8) ∧
    decode 0x89A4 = .ok (.addReg 9 0xA) ∧ decode 0x8BC5 = .ok (.subXY 0xB 0xC) ∧
    decode 0x8DE6 = .ok (.shR 0xD 0xE) ∧ decode 0x8F07 = .ok (.subYX 0xF 0) ∧
    decode 0x8FEE = .ok (.shL 0xF 0xE) ∧ decode 0xC30F = .ok (.random 3 0x0F) := by decide

theorem test_decode_index :
    decode 0xA123 = .ok (.setIndex 0x123) ∧ decode 0xF21E = .ok (.addIndex 2) ∧
    decode 0xF429 = .ok (.fontAddr 4) ∧ decode 0xF433 = .ok (.storeBCD 4) ∧
    decode 0xF555 = .ok (.storeRegs 5) ∧ decode 0xFF65 = .ok (.loadRegs 0xF) := by decide

theorem test_decode_video_keys_timers :
    decode 0x00E0 = .ok .clearScreen ∧ decode 0xD125 = .ok (.drawSprite 1 2 5) ∧
    decode 0xE29E = .ok (.skipKeyDown 2) ∧ decode 0xE2A1 = .ok (.skipKeyUp 2) ∧
    decode 0xF307 = .ok (.getDelay 3) ∧ decode 0xF30A = .ok (.waitKey 3) ∧
    decode 0xF315 = .ok (.setDelay 3) ∧ decode 0xF318 = .ok (.setSound 3) := by decide

/-- T-FLT-3, and a SUPER-CHIP word (N25). -/
theorem test_unknown_words :
    decode 0x0000 = .error (.unknownOpcode 0x0000) ∧
    decode 0x5121 = .error (.unknownOpcode 0x5121) ∧
    decode 0x8128 = .error (.unknownOpcode 0x8128) ∧
    decode 0xE29F = .error (.unknownOpcode 0xE29F) ∧
    decode 0xF2FF = .error (.unknownOpcode 0xF2FF) ∧
    decode 0x0123 = .error (.unknownOpcode 0x0123) ∧
    decode 0xF075 = .error (.unknownOpcode 0xF075) := by decide

theorem test_encode_words :
    encode (.drawSprite 1 2 5) = 0xD125 ∧ encode (.shL 0xF 1) = 0x8F1E ∧
    encode (.call 0x300) = 0x2300 ∧ encode (.loadRegs 2) = 0xF265 := by decide

/-- S-10: the byte at the lower address is the high-order one. -/
theorem test_decode_bytes_big_endian :
    decodeBytes [0x6A, 0x77, 0x12] = .ok (.setImm 0xA 0x77, [0x12]) ∧
    decodeBytes [0x6A] = .error .truncated := by decide

theorem test_decode_table_word :
    decodeTableWord 16 0xD125 = some (.drawSprite 1 2 5) ∧ decodeTableWord 16 0x0123 = none := by
  decide

/-! ### Control flow (41) -/

/-- T-CF-1, T-CF-2. -/
theorem test_jump :
    (stepOn State.reset 0x1ABC).map (fun t => t.pc) = some 0xABC ∧
    (stepOn State.reset 0x1200).map (fun t => (t.pc, t.runState)) = some (0x200, .running) := by
  decide

/-- T-CF-3, T-CF-4. -/
theorem test_call :
    (stepOn State.reset 0x2300).map (fun t => (t.pc, t.sp, t.stack[0])) = some (0x300, 1, 0x202) ∧
    (stepOn { State.reset with sp := 15 } 0x2400).map (fun t => (t.pc, t.sp, t.stack[15])) =
      some (0x400, 16, 0x202) := by decide

/-- T-CF-5. -/
theorem test_return :
    (stepOn { State.reset with sp := 1, stack := State.reset.stack.set 0 0xABC } 0x00EE).map
      (fun t => (t.pc, t.sp)) = some (0xABC, 0) := by decide

/-- T-CF-6. -/
theorem test_skip_eq_imm :
    (stepOn (State.reset.setReg 3 0x2A) 0x332A).map (fun t => t.pc) = some 0x204 ∧
    (stepOn (State.reset.setReg 3 0x2B) 0x332A).map (fun t => t.pc) = some 0x202 := by decide

/-- T-CF-7. -/
theorem test_skip_neq_imm :
    (stepOn (State.reset.setReg 3 0x2A) 0x432A).map (fun t => t.pc) = some 0x202 ∧
    (stepOn (State.reset.setReg 3 0x2B) 0x432A).map (fun t => t.pc) = some 0x204 := by decide

/-- T-CF-8. -/
theorem test_skip_eq_reg :
    (stepOn (regs2 1 7 2 7) 0x5120).map (fun t => t.pc) = some 0x204 ∧
    (stepOn (regs2 1 7 2 8) 0x5120).map (fun t => t.pc) = some 0x202 := by decide

/-- T-CF-10, T-CF-12. -/
theorem test_skip_neq_reg :
    (stepOn (regs2 1 7 2 7) 0x9120).map (fun t => t.pc) = some 0x202 ∧
    (stepOn (regs2 1 1 2 2) 0x9121).map (fun t => (t.pc, t.halted)) = some (0x204, false) := by
  decide

/-- T-CF-13, and step 1 of T-CF-14. -/
theorem test_jump_v0 :
    (stepOn (State.reset.setReg 0 4) 0xB300).map (fun t => t.pc) = some 0x304 ∧
    (stepOn (State.reset.setReg 0 0xFF) 0xBFFF).map (fun t => (t.pc, t.halted)) =
      some (0x10FE, false) := by decide

/-- T-CF-15: a skip from the top of memory does not fault by itself. -/
theorem test_skip_past_the_top :
    (stepOn { State.reset with pc := 0xFFC } 0x3000).map (fun t => (t.pc, t.halted)) =
      some (0x1000, false) := by decide

/-! ### Register ALU (42) -/

/-- T-ALU-1. -/
theorem test_set_imm :
    (stepOn (regs2 0xA 0x12 VF 0x55) 0x6A77).map (fun t => (t.reg 0xA, t.reg VF, t.pc)) =
      some (0x77, 0x55, 0x202) := by decide

/-- T-ALU-2, T-ALU-3. -/
theorem test_add_imm :
    (stepOn (regs2 3 0xFF VF 0x55) 0x7302).map (fun t => (t.reg 3, t.reg VF)) = some (1, 0x55) ∧
    (stepOn (State.reset.setReg VF 0xF8) 0x7F10).map (fun t => t.reg VF) = some 0x08 := by decide

/-- T-ALU-4. -/
theorem test_copy :
    (stepOn (State.reset.setReg 2 0x5A) 0x8120).map (fun t => (t.reg 1, t.reg 2)) =
      some (0x5A, 0x5A) := by decide

/-- T-ALU-5. -/
theorem test_or :
    (stepOn ((regs2 1 0xF0 2 0x0F).setReg VF 0x55) 0x8121).map (fun t => (t.reg 1, t.reg VF)) =
      some (0xFF, 0x55) := by decide

/-- T-ALU-5. -/
theorem test_and :
    (stepOn ((regs2 1 0xF0 2 0x3C).setReg VF 0x55) 0x8122).map (fun t => (t.reg 1, t.reg VF)) =
      some (0x30, 0x55) := by decide

/-- T-ALU-5, T-ALU-25. -/
theorem test_xor :
    (stepOn ((regs2 1 0xF0 2 0x3C).setReg VF 0x55) 0x8123).map (fun t => (t.reg 1, t.reg VF)) =
      some (0xCC, 0x55) ∧
    (stepOn (regs2 1 0xF0 VF 0x55) 0x8113).map (fun t => (t.reg 1, t.reg VF)) = some (0, 0x55) := by
  decide

/-- T-ALU-6, T-ALU-7. -/
theorem test_add_reg :
    (stepOn (regs2 1 0xC8 2 0x64) 0x8124).map (fun t => (t.reg 1, t.reg VF)) = some (0x2C, 1) ∧
    (stepOn ((regs2 1 0xFE 2 1).setReg VF 0x55) 0x8124).map (fun t => (t.reg 1, t.reg VF)) =
      some (0xFF, 0) := by decide

/-- T-ALU-8, T-ALU-9: `VF` as destination and as operand. -/
theorem test_add_reg_vf :
    (stepOn (regs2 VF 0x03 1 0x04) 0x8F14).map (fun t => t.reg VF) = some 0 ∧
    (stepOn (regs2 VF 0x01 1 0xFF) 0x81F4).map (fun t => (t.reg 1, t.reg VF)) = some (0, 1) := by
  decide

/-- S-2 (T-ALU-11) and T-ALU-12. -/
theorem test_sub_xy :
    (stepOn (regs2 1 3 2 5) 0x8125).map (fun t => (t.reg 1, t.reg VF)) = some (0xFE, 0) ∧
    (stepOn (regs2 1 7 2 7) 0x8125).map (fun t => (t.reg 1, t.reg VF)) = some (0, 1) := by decide

/-- T-ALU-13, T-ALU-14. -/
theorem test_sub_xy_vf :
    (stepOn (regs2 VF 5 1 3) 0x8F15).map (fun t => t.reg VF) = some 2 ∧
    (stepOn (regs2 1 3 VF 5) 0x81F5).map (fun t => (t.reg 1, t.reg VF)) = some (0xFE, 0) := by
  decide

/-- T-ALU-15. -/
theorem test_sub_yx :
    (stepOn (regs2 1 3 2 5) 0x8127).map (fun t => (t.reg 1, t.reg VF)) = some (2, 1) ∧
    (stepOn (regs2 1 5 2 3) 0x8127).map (fun t => (t.reg 1, t.reg VF)) = some (0xFE, 0) := by decide

/-- T-ALU-16, T-ALU-19. -/
theorem test_shr :
    (stepOn (regs2 1 0x05 2 0xF0) 0x8126).map (fun t => (t.reg 1, t.reg 2, t.reg VF)) =
      some (0x02, 0xF0, 1) ∧
    (stepOn (State.reset.setReg VF 0x07) 0x8F16).map (fun t => t.reg VF) = some 0x03 := by decide

/-- T-ALU-18: `SHIFT_SRC = Y`. -/
theorem test_shr_source_y :
    (stepOn { regs2 1 0x05 2 0xF0 with params := { defaultParams with shiftSrc := .y } } 0x8126).map
      (fun t => (t.reg 1, t.reg 2, t.reg VF)) = some (0x78, 0xF0, 0) := by decide

/-- T-ALU-20, T-ALU-23. -/
theorem test_shl :
    (stepOn (State.reset.setReg 1 0x81) 0x812E).map (fun t => (t.reg 1, t.reg VF)) = some (2, 1) ∧
    (stepOn (State.reset.setReg VF 0xC1) 0x8F1E).map (fun t => t.reg VF) = some 0x82 := by decide

/-- T-ALU-22: `SHIFT_SRC = Y`. -/
theorem test_shl_source_y :
    (stepOn { regs2 1 0x05 2 0xF0 with params := { defaultParams with shiftSrc := .y } } 0x812E).map
      (fun t => (t.reg 1, t.reg 2, t.reg VF)) = some (0xE0, 0xF0, 1) := by decide

/-- T-ALU-24. -/
theorem test_random :
    (stepOn (given State.reset 0 0xB7) 0xC30F).map (fun t => t.reg 3) = some 0x07 ∧
    (stepOn (given State.reset 0 0xB7) 0xC3FF).map (fun t => t.reg 3) = some 0xB7 := by decide

/-! ### Index register and memory (43) -/

/-- T-IDX-1. -/
theorem test_set_index : (stepOn State.reset 0xA123).map (fun t => t.i) = some 0x123 := by decide

/-- T-IDX-3, T-IDX-4. -/
theorem test_add_index :
    (stepOn { State.reset.setReg 2 0x0F with i := 0xFF0 } 0xF21E).map (fun t => (t.i, t.reg VF)) =
      some (0xFFF, 0) ∧
    (stepOn { State.reset.setReg 2 0x03 with i := 0xFFE } 0xF21E).map (fun t => (t.i, t.reg VF)) =
      some (0x1001, 1) := by decide

/-- T-IDX-5, T-IDX-6. -/
theorem test_add_index_corners :
    (stepOn { State.reset.setReg 2 1 with i := 0xFFFF } 0xF21E).map (fun t => (t.i, t.reg VF)) =
      some (0, 1) ∧
    (stepOn { State.reset.setReg VF 0x10 with i := 0x300 } 0xFF1E).map (fun t => (t.i, t.reg VF)) =
      some (0x310, 0) := by decide

/-- T-IDX-7. -/
theorem test_font_addr :
    (stepOn (State.reset.setReg 4 0x0A) 0xF429).map (fun t => t.i) = some 0x32 ∧
    (stepOn (State.reset.setReg 4 0xFF) 0xF429).map (fun t => t.i) = some 0x4FB := by decide

/-- T-IDX-8, T-IDX-10. -/
theorem test_store_bcd :
    (stepOn { State.reset.setReg 4 0xEA with i := 0x300 } 0xF433).map
      (fun t => [t.mem.peek 0x300, t.mem.peek 0x301, t.mem.peek 0x302]) = some [2, 3, 4] ∧
    (stepOn { State.reset.setReg 4 0xEA with i := 0xFFE } 0xF433).map (fun t => t.fault) =
      some { code := .outOfBounds, info := 4096 } := by decide

/-- T-IDX-11, with `V0..V2 = 1, 2, 3`. -/
theorem test_store_regs :
    (stepOn { (regs2 0 1 1 2).setReg 2 3 with i := 0x400 } 0xF155).map
      (fun t => ([t.mem.peek 0x400, t.mem.peek 0x401, t.mem.peek 0x402], t.i)) =
      some ([1, 2, 0], 0x400) := by decide

/-- T-IDX-12. -/
theorem test_store_regs_at_the_top :
    (stepOn { State.reset.setReg 0 0x5A with i := 0xFFF } 0xF055).map
      (fun t => (t.mem.peek 0xFFF, t.halted)) = some (0x5A, false) ∧
    (stepOn { State.reset.setReg 0 0x5A with i := 0xFFF } 0xF155).map (fun t => t.fault) =
      some { code := .outOfBounds, info := 4096 } := by decide

/-- T-IDX-14. -/
theorem test_load_regs :
    (stepOn { put (put (put (put (State.reset.setReg 3 0x77) 0x400 0xAA) 0x401 0xBB) 0x402 0xCC)
        0x403 0xDD with i := 0x400 } 0xF265).map
      (fun t => ([t.reg 0, t.reg 1, t.reg 2, t.reg 3], t.i)) =
      some ([0xAA, 0xBB, 0xCC, 0x77], 0x400) := by decide

/-- T-IDX-13. -/
theorem test_load_regs_out_of_range :
    (stepOn { State.reset with i := 0x1000 } 0xF065).map (fun t => t.fault) =
      some { code := .outOfBounds, info := 4096 } ∧
    (stepOn { State.reset with i := 0x2345 } 0xF065).map (fun t => t.fault) =
      some { code := .outOfBounds, info := 0x2345 } := by decide

/-! ### Video (44) -/

/-- T-VID-1, on the two pixels it lights. -/
theorem test_clear_screen :
    (stepOn (light (light (State.reset.setReg VF 0x55) 3 4) 31 63) 0x00E0).map
      (fun t => (t.fb.pixel 3 4, t.fb.pixel 31 63, t.reg VF, t.strobe)) =
      some (false, false, 0x55, false) := by decide

/-- T-VID-2: bit 7 is the leftmost pixel. -/
theorem test_draw_bit_order :
    (stepOn { put (regs2 0 4 1 2) 0x300 0xA5 with i := 0x300 } 0xD011).map
      (fun t => ((List.range 10).map fun j => t.fb.pixel 2 (3 + j), t.reg VF, t.strobe)) =
      some ([false, true, false, true, false, false, true, false, true, false], 0, true) := by
  decide

/-- T-VID-5, T-VID-6: a collision, and none beside a lit pixel. -/
theorem test_draw_collision :
    (stepOn { put (light State.reset 0 0) 0x300 0x80 with i := 0x300 } 0xD011).map
      (fun t => (t.fb.pixel 0 0, t.reg VF)) = some (false, 1) ∧
    (stepOn { put (light State.reset 0 0) 0x300 0x40 with i := 0x300 } 0xD011).map
      (fun t => (t.fb.pixel 0 0, t.fb.pixel 0 1, t.reg VF)) = some (true, true, 0) := by decide

/-- T-VID-7: no horizontal wrap. -/
theorem test_draw_does_not_wrap :
    (stepOn { put (light (State.reset.setReg 0 60) 0 0) 0x300 0x0F with i := 0x300 } 0xD011).map
      (fun t => ([t.fb.pixel 0 0, t.fb.pixel 0 1, t.fb.pixel 1 0, t.fb.pixel 0 63], t.reg VF)) =
      some ([true, false, false, false], 0) := by decide

/-- T-VID-8: zero rows read nothing, even with `I` beyond memory. -/
theorem test_draw_zero_rows :
    (stepOn { State.reset.setReg VF 0x55 with i := 0x2000 } 0xD010).map
      (fun t => (t.halted, t.reg VF, t.strobe)) = some (false, 0, true) := by decide

/-- T-VID-10: the byte of a clipped row is still read. -/
theorem test_draw_reads_clipped_rows :
    (stepOn { State.reset.setReg 1 31 with i := 0xFFF } 0xD012).map (fun t => (t.fault, t.strobe)) =
      some ({ code := .outOfBounds, info := 4096 }, false) := by decide

/-! ### Keyboard and timers (45) -/

/-- T-KEY-1, T-KEY-3. -/
theorem test_skip_key_down :
    (stepOn (given (State.reset.setReg 2 0x05) 0 0) 0xE29E).map (fun t => t.pc) = some 0x202 ∧
    (stepOn (given (State.reset.setReg 2 0x15) 0x0020 0) 0xE29E).map (fun t => t.pc) =
      some 0x204 := by decide

/-- T-KEY-2. -/
theorem test_skip_key_up :
    (stepOn (given (State.reset.setReg 2 0x05) 0x0020 0) 0xE2A1).map (fun t => t.pc) = some 0x202 ∧
    (stepOn (given (State.reset.setReg 2 0x05) 0 0) 0xE2A1).map (fun t => t.pc) = some 0x204 := by
  decide

/-- T-KEY-4. -/
theorem test_wait_key_waits :
    (stepOn { given (State.reset.setReg 3 0x77) 0 0 with dt := 5 } 0xF30A).map
      (fun t => (t.pc, t.reg 3, t.runState, t.dt)) = some (0x200, 0x77, .waitingForKey, 4) := by
  decide

/-- T-KEY-6, T-KEY-7. -/
theorem test_wait_key_latches :
    (stepOn (given State.reset 0x0090 0) 0xF30A).map (fun t => (t.pc, t.reg 3, t.runState)) =
      some (0x202, 4, .running) ∧
    (stepOn (given State.reset 0x8000 0) 0xF30A).map (fun t => t.reg 3) = some 0xF := by decide

/-- T-TMR-1. -/
theorem test_get_delay :
    (stepOn { State.reset with dt := 0x10 } 0xF307).map (fun t => (t.reg 3, t.dt)) =
      some (0x10, 0x0F) := by decide

/-- T-TMR-2, T-TMR-3. -/
theorem test_set_delay :
    (stepOn (State.reset.setReg 3 0x3C) 0xF315).map (fun t => t.dt) = some 0x3B ∧
    (stepOn { State.reset with dt := 9 } 0xF315).map (fun t => t.dt) = some 0 := by decide

/-- T-TMR-5, T-TMR-7. -/
theorem test_set_sound :
    (stepOn (State.reset.setReg 3 5) 0xF318).map (fun t => (t.st, t.audioOn)) = some (4, true) ∧
    (stepOn { State.reset.setReg 3 2 with st := 9 } 0xF318).map (fun t => t.st) = some 8 := by decide

/-- T-TMR-6, T-TMR-9: the least value that passes the guard; the guard off. -/
theorem test_set_sound_guard :
    (stepOn (State.reset.setReg 3 3) 0xF318).map (fun t => t.st) = some 2 ∧
    (stepOn { State.reset.setReg 3 2 with
        st := 9, params := { defaultParams with setSoundGuard := false } } 0xF318).map
      (fun t => t.st) = some 1 := by decide

/-- T-TMR-4: the timers stop at zero. -/
theorem test_timers_floor :
    (stepOn State.reset 0x1200).map (fun t => (t.dt, t.st)) = some (0, 0) := by decide

/-! ### Faults, fetch and the step (40, 60) -/

/-- T-FLT-1, T-FLT-2. -/
theorem test_stack_faults :
    (stepOn State.reset 0x00EE).map (fun t => (t.faultCode, t.faultInfo)) = some (3, 0) ∧
    (stepOn { State.reset with sp := 16 } 0x2400).map (fun t => (t.faultCode, t.faultInfo)) =
      some (2, 0) := by decide

/-- T-FLT-3. -/
theorem test_unknown_opcode_fault :
    (stepOn State.reset 0x8128).map (fun t => (t.faultCode, t.faultInfo)) = some (4, 0x8128) := by
  decide

/-- T-FLT-4. -/
theorem test_fetch_faults :
    (outcomeState (step { State.reset with pc := 0xFFF })).map (fun t => t.fault) =
      some { code := .outOfBounds, info := 4096 } ∧
    (outcomeState (step { State.reset with pc := 0x10FE })).map (fun t => t.fault) =
      some { code := .outOfBounds, info := 0x10FE } := by decide

/-- T-FLT-7: an odd `PC` is legal. -/
theorem test_odd_pc :
    (stepOn { State.reset with pc := 0x201 } 0x6A77).map (fun t => (t.reg 0xA, t.pc, t.halted)) =
      some (0x77, 0x203, false) := by decide

/-- T-FLT-8: a halted machine ignores steps. -/
theorem test_halted_ignores_steps :
    (stepOn { State.reset with fault := { code := .stackUnderflow, info := 0 }, dt := 5 } 0x6A77).map
      (fun t => (t.fault, t.reg 0xA, t.dt, t.pc)) =
      some ({ code := .stackUnderflow, info := 0 }, 0, 5, 0x200) := by decide

/-- R69 through R291: the first and last bytes of the default font, and the zero gap above it. -/
theorem test_reset_memory :
    [0x000, 0x04B, 0x04F, 0x050, 0x200].map State.reset.mem.peek = [0xF0, 0xF0, 0x80, 0, 0] := by
  decide

/-! ### Witnesses: inputs that meet an obligation's hypotheses -/

/-- The machine at reset with `w` at `PC`, no key pressed and the random byte 0. -/
def ready (w : Nat) : State := given (State.reset.withFetchWord 16 w) 0 0

/-- The state after one step, or the state itself where there is none. -/
def after (s : State) : State := (outcomeState (step s)).getD s

/-- A machine halted by a stack underflow. -/
def stopped : State := { State.reset with fault := latchStackUnderflow }

/-- One instruction of every constructor. -/
def everyInstr : List Instr :=
  [ .clearScreen, .ret, .jump 0x300, .call 0x300, .skipEqImm 1 2, .skipNeqImm 1 2, .skipEqReg 1 2,
    .setImm 1 2, .addImm 1 2, .copy 1 2, .or 1 2, .and 1 2, .xor 1 2, .addReg 1 2, .subXY 1 2,
    .shR 1 2, .subYX 1 2, .shL 1 2, .skipNeqReg 1 2 3, .setIndex 0x300, .jumpV0 0x300,
    .random 1 2 ] ++
  [ .drawSprite 1 2 3, .skipKeyDown 1, .skipKeyUp 1, .getDelay 1, .waitKey 1, .setDelay 1,
    .setSound 1, .addIndex 1, .fontAddr 1, .storeBCD 1, .storeRegs 1, .loadRegs 1 ]

/-- For every row of the opcode map (and so for every `RowDecodes` of an obligation) a word that
selects it. -/
theorem witness_OpcodeMapDecidesEveryWord :
    ∀ i ∈ everyInstr, ∃ r ∈ opcodeMap, encode i &&& r.mask = r.value ∧ r.build (encode i) = i := by
  decide

theorem witness_EncodeOfDecodeIsTheWord : decode 0x912F = .ok (.skipNeqReg 1 2 0xF) := by decide

/-- A word for each clause of the table of unknown words; the edges `8xy7` and `8xyE` decode. -/
theorem witness_UnknownWordsAreTheListedOnes :
    decode 0x0FFF = .error (.unknownOpcode 0x0FFF) ∧
    decode 0x5001 = .error (.unknownOpcode 0x5001) ∧
    decode 0x8008 = .error (.unknownOpcode 0x8008) ∧
    decode 0x800D = .error (.unknownOpcode 0x800D) ∧
    decode 0x800F = .error (.unknownOpcode 0x800F) ∧
    decode 0xE09F = .error (.unknownOpcode 0xE09F) ∧
    decode 0xF066 = .error (.unknownOpcode 0xF066) ∧ decode 0x8007 = .ok (.subYX 0 0) ∧ decode 0x800E = .ok (.shL 0 0) := by decide

theorem witness_StepRunsTheDecodedInstruction :
    let s := ({ State.reset with pc := 0xFFE }).withFetchWord 16 0x1200
    s.halted = false ∧ s.pc.toNat + 1 < 4096 ∧
      decode (wordOfBytes (s.mem.peek s.pc.toNat) (s.mem.peek (s.pc.toNat + 1))) =
        .ok (.jump 0x200) ∧
      s.inputs = [] ∧ (ready 0x1200).inputs = [{ keys := 0, rnd := 0 }] ∧
      stopped.halted = true := by decide

theorem witness_FetchReadsTheWordAtPc :
    ({ State.reset with pc := 0xFFE } : State).pc.toNat ≤ 0xFFE ∧
    ({ State.reset with pc := 0xFFF } : State).pc.toNat = 4095 ∧
    4096 ≤ ({ State.reset with pc := 0x1000 } : State).pc.toNat ∧
    ({ State.reset with pc := 0xFFF } : State).halted = false ∧
    ({ State.reset with pc := 0x1000 } : State).halted = false := by decide

theorem witness_UnknownWordLatchesItself :
    State.reset.halted = false ∧ State.reset.fetchWord = .ok 0 ∧
      ∀ r ∈ opcodeMap, r.selects 0 = false := by
  unfold opcodeMap opRowsLow opRowsAlu opRowsMid opRowsHigh
  decide

theorem witness_load : ∃ s, State.load (Launch.ofProgram [0x12, 0x00]) = .ok s :=
  ⟨_, rfl⟩

theorem witness_HaltedMachineStaysHalted :
    stopped.halted = true ∧ 0 < 1 ∧ ∃ s, State.load (Launch.ofProgram [0x12, 0x00]) = .ok s :=
  ⟨by decide, by decide, witness_load⟩

theorem witness_TimersTickOncePerStep :
    (ready 0x1200).halted = false ∧ (ready 0x1200).fetchInstr = .ok (.jump 0x200) ∧
    step (ready 0x1200) = .next (after (ready 0x1200)) ∧ (after (ready 0x1200)).halted = false ∧
    (∀ x, Instr.jump 0x200 ≠ .setDelay x) ∧ ∀ x, Instr.jump 0x200 ≠ .setSound x :=
  ⟨by decide, by decide, rfl, by decide, by simp, by simp⟩

/-- A run of one step that executes a `Jump` to itself. -/
def parkedRun (j : Nat) : State := if j = 0 then ready 0x1200 else after (ready 0x1200)

theorem witness_DelayTimerDecaysOverARun :
    SafeRun parkedRun 1 ∧ ∀ j, j < 1 → ∀ x, (parkedRun j).fetchInstr ≠ .ok (.setDelay x) := by
  refine ⟨⟨by decide, fun j hj => ?_⟩, fun j hj x => ?_⟩
  · obtain rfl : j = 0 := by omega
    exact ⟨rfl, by decide⟩
  · obtain rfl : j = 0 := by omega
    rw [show (parkedRun 0).fetchInstr = .ok (.jump 0x200) by decide]
    simp

/-- Both clauses: a `WaitKey` with no key pressed, and an instruction that is none. -/
theorem witness_RunStateAfterAStep :
    ((ready 0xF30A).halted = false ∧ (ready 0xF30A).fetchInstr = .ok (.waitKey 3) ∧
      step (ready 0xF30A) = .next (after (ready 0xF30A)) ∧ (after (ready 0xF30A)).halted = false ∧
      (ready 0xF30A).nextInput.keys = 0) ∧
    ((ready 0x1200).fetchInstr = .ok (.jump 0x200) ∧
      step (ready 0x1200) = .next (after (ready 0x1200)) ∧ (after (ready 0x1200)).halted = false) :=
  ⟨⟨by decide, by decide, rfl, by decide, by decide⟩, by decide, rfl, by decide⟩

/-- A step that does not fault, one that does, and one of a halted machine. -/
theorem witness_RunStateInfluencesNoStep :
    (step (ready 0xF30A) = .next (after (ready 0xF30A)) ∧ (after (ready 0xF30A)).halted = false) ∧
    (step (ready 0x00EE) = .next (after (ready 0x00EE)) ∧ (after (ready 0x00EE)).halted = true) ∧
    (step stopped = .next (after stopped) ∧ stopped.halted = true) :=
  ⟨⟨rfl, by decide⟩, ⟨rfl, by decide⟩, rfl, by decide⟩

/-- A step that draws and one that does not, neither faulting. -/
theorem witness_StrobeAndAudioAfterAStep :
    ((ready 0xD010).halted = false ∧ step (ready 0xD010) = .next (after (ready 0xD010)) ∧
      (after (ready 0xD010)).halted = false ∧
      (ready 0xD010).fetchInstr = .ok (.drawSprite 0 1 0)) ∧
    (step (ready 0x00E0) = .next (after (ready 0x00E0)) ∧
      (after (ready 0x00E0)).halted = false) :=
  ⟨⟨by decide, rfl, by decide, by decide⟩, rfl, by decide⟩

theorem witness_FrameIsRowMajor : 31 < 32 ∧ 63 < 64 ∧ 31 * 64 + 63 = 2047 := by decide

theorem witness_ResetLeavesTheNamedValues :
    15 < 16 ∧ (0x50 ≤ 0x50 ∧ 0x50 < 0x200) ∧ (0x50 ≤ 0x1FF ∧ 0x1FF < 0x200) := by decide

/-- Both lengths at the limit, an address in each part of the image, and room for a tail. -/
theorem witness_LoadImageIsTheLaunchedProgram :
    (Launch.ofProgram (List.replicate 3584 0x12)).program.length ≤ 3584 ∧
    3584 < (Launch.ofProgram (List.replicate 3585 0x12)).program.length ∧
    0x4F < 0x50 ∧ (0x50 ≤ 0x1FF ∧ 0x1FF < 0x200) ∧
    3583 < (Launch.ofProgram (List.replicate 3584 0x12)).program.length ∧
    0x200 + (Launch.ofProgram [0x12, 0x00]).program.length + 3581 < 4096 := by
  simp only [Launch.ofProgram, List.length_replicate]
  decide

theorem witness_InvariantHoldsAfterReset :
    ∃ s, State.load (Launch.ofProgram [0x12, 0x00]) = .ok s := witness_load

/-- A running machine with one return address held, and a halted one. -/
theorem witness_EveryStepKeepsTheInvariant :
    ((after (ready 0x2300)).Inv ∧
      step (after (ready 0x2300)) = .next (after (after (ready 0x2300)))) ∧
    (stopped.Inv ∧ step stopped = .next (after stopped)) := by
  refine ⟨⟨⟨by decide, ?_, fun _ => ⟨by decide, ?_⟩⟩, rfl⟩, ⟨by decide, ?_, fun h => ?_⟩, rfl⟩
  · show ((after (ready 0x2300)).fault.info = 0)
    decide
  · decide
  · rfl
  · cases h

theorem witness_ParametersNeverChange : step (ready 0x1200) = .next (after (ready 0x1200)) := rfl

theorem witness_OnlyVideoInstructionsWriteTheScreen :
    step (ready 0x1200) = .next (after (ready 0x1200)) ∧ (after (ready 0x1200)).halted = false ∧
    (ready 0x1200).fetchInstr ≠ .ok .clearScreen ∧
    ∀ x y n, (ready 0x1200).fetchInstr ≠ .ok (.drawSprite x y n) := by
  refine ⟨rfl, by decide, by decide, fun x y n => ?_⟩
  rw [show (ready 0x1200).fetchInstr = .ok (.jump 0x200) by decide]
  simp

theorem witness_OnlyStoresWriteMemory :
    step (ready 0x1200) = .next (after (ready 0x1200)) ∧ (after (ready 0x1200)).halted = false ∧
    (∀ x, (ready 0x1200).fetchInstr ≠ .ok (.storeBCD x)) ∧
    (∀ x, (ready 0x1200).fetchInstr ≠ .ok (.storeRegs x)) ∧
    (∀ nnn, (ready 0x1200).fetchInstr ≠ .ok (.call nnn)) ∧
    (ready 0x1200).fetchInstr ≠ .ok .ret := by
  rw [show (ready 0x1200).fetchInstr = .ok (.jump 0x200) by decide]
  refine ⟨rfl, by decide, ?_, ?_, ?_, ?_⟩ <;> simp

/-- Every constructor completes without a fault from one state with a return address to pop. -/
theorem witness_NextPcIsThatOfTheTable :
    ∀ i ∈ everyInstr,
      (outcomeState (exec i { State.reset with sp := 1 })).map State.halted = some false := by
  decide

theorem witness_RegistersWrittenAreThoseOfTheTable :
    exec (.jump 0x300) State.reset = .next (State.reset.jumpTo 0x300) ∧
    (State.reset.jumpTo 0x300).halted = false ∧
    (∀ nnn, Instr.jump 0x300 ≠ .setIndex nnn) ∧ (∀ x, Instr.jump 0x300 ≠ .addIndex x) ∧
    ∀ x, Instr.jump 0x300 ≠ .fontAddr x :=
  ⟨rfl, by decide, by simp, by simp, by simp⟩

theorem witness_ReturnPopsIntoPc :
    0 < ({ State.reset with sp := 1 } : State).sp.val ∧
    0 < ({ State.reset with sp := 16 } : State).sp.val := by decide

theorem witness_CallPushesTheReturnAddress :
    State.reset.sp.val < 16 ∧ ({ State.reset with sp := 15 } : State).sp.val < 16 := by decide

/-- Each clause at its edge. -/
theorem witness_StackLimitsFault :
    ({ State.reset with sp := 16 } : State).halted = false ∧
    ({ State.reset with sp := 16 } : State).sp.val = 16 ∧
    ({ State.reset with sp := 15 } : State).sp.val < 16 ∧
    ({ State.reset with sp := 0 } : State).sp.val = 0 ∧
    0 < ({ State.reset with sp := 1 } : State).sp.val := by decide

theorem witness_CallThenReturnResumesAfterTheCall :
    ∃ t, State.reset.sp.val < 16 ∧ exec (.call 0x300) State.reset = .next t ∧ t.sp = t.sp ∧
      t.stack = t.stack :=
  ⟨_, by decide, rfl, rfl, rfl⟩

theorem witness_JumpGoesToTheTarget :
    (0xFFF : Addr) = 0xFFF ∧ State.reset.pc.toNat = (0x200 : Addr).toNat := by decide

theorem witness_SkipEqRegComparesRegisters :
    (0x5121 : Word) &&& 0xF000 = 0x5000 ∧ fieldN 0x5121 ≠ 0 ∧ (3 : Reg) = 3 := by decide

theorem witness_SkipNeqRegIgnoresItsLowDigit : (3 : Reg) = 3 := rfl

/-- A register that is not `VF`, for `AddReg`, the subtractions and the shifts. -/
theorem witness_AddRegSetsTheCarry : (1 : Reg) ≠ VF := by decide

theorem witness_SubtractionsWrapAndSetNotBorrow : (1 : Reg) ≠ VF := by decide

/-- Both settings of `SHIFT_SRC`, with `x` and `y` different. -/
theorem witness_ShiftsMoveOneBitIntoVf :
    let s := regs2 1 0x05 2 0xF0
    let s' : State := { s with params := { defaultParams with shiftSrc := .y } }
    ((s.params.shiftSrc = .x → 0x05 = s.reg 1) ∧ (s.params.shiftSrc = .y → 0x05 = s.reg 2)) ∧
    ((s'.params.shiftSrc = .x → 0xF0 = s'.reg 1) ∧ (s'.params.shiftSrc = .y → 0xF0 = s'.reg 2)) ∧
    (1 : Reg) ≠ VF := by decide

theorem witness_RandomMasksTheDrawnByte : (0 : Byte) = 0 := rfl

theorem witness_AddIndexAndFontAddrMoveI :
    ((State.reset.setReg 4 15).reg 4).toNat ≤ 15 := by decide

theorem witness_StoreBcdStoresThreeDigits :
    ({ State.reset with i := 0xFFD } : State).i.toNat + 2 < 4096 := by decide

/-- The last block in memory, the first that leaves it, and a base out of range. -/
theorem witness_StoreRegsStoresTheBlock :
    ({ State.reset with i := 0xFFF } : State).i.toNat + (0 : Reg).val < 4096 ∧
    4096 ≤ ({ State.reset with i := 0xFFF } : State).i.toNat + (1 : Reg).val ∧
    4096 ≤ ({ State.reset with i := 0x1000 } : State).i.toNat + (0 : Reg).val := by decide

theorem witness_LoadRegsLoadsTheBlock :
    ({ State.reset with i := 0xFF0 } : State).i.toNat + VF.val < 4096 ∧
    4096 ≤ ({ State.reset with i := 0xFF1 } : State).i.toNat + VF.val ∧
    4096 ≤ ({ State.reset with i := 0xFFFF } : State).i.toNat + (0 : Reg).val := by decide

theorem witness_StoredRegistersLoadBack :
    ∃ t, ({ regs2 0 1 1 2 with i := 0x400 } : State).i.toNat + (1 : Reg).val < 4096 ∧
      exec (.storeRegs 1) { regs2 0 1 1 2 with i := 0x400 } = .next t ∧
      t.i = ({ regs2 0 1 1 2 with i := 0x400 } : State).i ∧ ∀ a, t.mem.peek a = t.mem.peek a :=
  ⟨_, by decide, rfl, rfl, fun _ => rfl⟩

/-- A register block at the top of memory, fetched from one byte below it, and digits, fetched from
inside; the last clause is the bound on `PC` at its two edges. -/
theorem witness_StoresAreSeenByTheNextFetch :
    (∃ t, exec (.storeRegs 1) { regs2 0 0x12 1 0x0A with i := 0xFFE } = .next t ∧
      ([0x12, 0x0A] : List Byte).length = (1 : Reg).val + 1 ∧
      (∀ r : Reg, r ≤ 1 → ([0x12, 0x0A] : List Byte)[r.val]? = some ((regs2 0 0x12 1 0x0A).reg r)) ∧
      (0xFFE : Word).toNat + ([0x12, 0x0A] : List Byte).length ≤ 4096 ∧
      (∀ a, ({ t with pc := 0xFFD } : State).mem.peek a = t.mem.peek a)) ∧
    (∃ t, exec (.storeBCD 4) { State.reset.setReg 4 0xEA with i := 0x300 } = .next t ∧
      ([2, 3, 4] : List Byte).map BitVec.toNat =
        [(0xEA : Byte).toNat / 100, (0xEA : Byte).toNat / 10 % 10, (0xEA : Byte).toNat % 10] ∧
      (0x300 : Word).toNat + ([2, 3, 4] : List Byte).length ≤ 4096 ∧
      (∀ a, ({ t with pc := 0x301 } : State).mem.peek a = t.mem.peek a)) ∧
    (0xFFD : Word).toNat + 1 < 4096 ∧ (0xFFE : Word).toNat + 1 < 4096 :=
  ⟨⟨_, rfl, by decide, by decide, by decide, fun _ => rfl⟩,
    ⟨_, rfl, by decide, by decide, fun _ => rfl⟩, by decide, by decide⟩

/-- For each of the four instructions' lengths an `I` in range and one out of it; `n = 0` never is. -/
theorem witness_DataAccessOutOfRangeLatchesTheAddress :
    (0 < 2 ∧ 4096 < (0xFFF : Word).toNat + 2) ∧ ¬ (0 < 1 ∧ 4096 < (0xFFF : Word).toNat + 1) ∧
    ¬ (0 < 0 ∧ 4096 < (0x2000 : Word).toNat + 0) ∧ (0 < 3 ∧ 4096 < (0xFFE : Word).toNat + 3) ∧
    ¬ (0 < 3 ∧ 4096 < (0xFFD : Word).toNat + 3) ∧ (0 < 16 ∧ 4096 < (0xFF1 : Word).toNat + 16) ∧
    ¬ (0 < 16 ∧ 4096 < (0xFF0 : Word).toNat + 16) := by decide

theorem witness_ClearScreenBlanksEveryPixel : 31 < 32 ∧ 63 < 64 := by decide

theorem witness_DrawSpriteXorsAndReportsCollision :
    ((0 : Nibble).toNat = 0 ∨ ({ State.reset with i := 0x2000 } : State).i.toNat + 0 ≤ 4096) ∧
    ({ State.reset with i := 0xFFF } : State).i.toNat + (1 : Nibble).toNat ≤ 4096 ∧
    [(0 : Byte)] = (List.range (1 : Nibble).toNat).map
      (fun j => ({ State.reset with i := 0xFFF } : State).mem.peek (0xFFF + j)) := by decide

/-- R213 and T-VID-2: at column 4, row 2, the byte A5 covers columns 4, 6, 9 and 11 of its row; bit 7
is the leftmost pixel and bit 0 the rightmost, and outside the rectangle no bit covers. -/
theorem test_sprite_bit_order :
    (List.range 64).filter (fun c => spriteAt [0xA5] 4 2 2 c) = [4, 6, 9, 11] ∧
    (List.range 64).filter (fun c => spriteAt [0xFF, 0x80] 4 2 3 c) = [4] ∧
    (List.range 64).filter (fun c => spriteAt [0xFF, 0x01] 4 2 3 c) = [11] ∧
    (List.range 64).filter (fun c => spriteAt [0xFF] 4 2 1 c || spriteAt [0xFF] 4 2 3 c) = [] := by
  decide

theorem witness_DrawingTwiceRestoresTheScreen :
    ∃ t u, (0 : Reg) ≠ VF ∧ (1 : Reg) ≠ VF ∧
      State.reset.i.toNat + (1 : Nibble).toNat ≤ 4096 ∧
      exec (.drawSprite 0 1 1) State.reset = .next t ∧ exec (.drawSprite 0 1 1) t = .next u ∧
      t.reg VF = 0 :=
  ⟨_, _, by decide, by decide, by decide, rfl, rfl, by decide⟩

/-- Both ways of starting off the screen, at the first value, and a block in memory. -/
theorem witness_SpritesOffTheScreenDrawNothing :
    64 ≤ ((State.reset.setReg 0 64).reg 0).toNat ∧ 32 ≤ ((State.reset.setReg 1 32).reg 1).toNat ∧
    State.reset.i.toNat + (15 : Nibble).toNat ≤ 4096 := by decide

/-- No key, the lowest key, and the highest key alone. -/
theorem witness_WaitKeyLatchesTheLowestKey :
    State.reset.k = 0 ∧
    (0 < 16 ∧ (0xFFFF : BitVec 16).getLsbD 0 = true ∧
      ∀ j, j < 0 → (0xFFFF : BitVec 16).getLsbD j = false) ∧
    (15 < 16 ∧ (0x8000 : BitVec 16).getLsbD 15 = true ∧
      ∀ j, j < 15 → (0x8000 : BitVec 16).getLsbD j = false) := by decide

theorem witness_GetDelayReadsBeforeTheTick :
    (ready 0xF307).halted = false ∧ (ready 0xF307).fetchInstr = .ok (.getDelay 3) := by decide

theorem witness_TimerWritesTickInTheSameStep :
    ((ready 0xF315).halted = false ∧ (ready 0xF315).fetchInstr = .ok (.setDelay 3)) ∧
    ((ready 0xF318).halted = false ∧ (ready 0xF318).fetchInstr = .ok (.setSound 3)) := by decide

/-- A step that faults, one that does not, and one of a halted machine. -/
theorem witness_EveryStepTakesOneInput :
    (step (ready 0x00EE) = .next (after (ready 0x00EE)) ∧ (ready 0x00EE).halted = false) ∧
    (step (ready 0x1200) = .next (after (ready 0x1200)) ∧ (ready 0x1200).halted = false) ∧
    (step stopped = .next (after stopped) ∧ stopped.halted = true) :=
  ⟨⟨rfl, by decide⟩, ⟨rfl, by decide⟩, rfl, by decide⟩

end Sys2Proof.Tests
end

section
/-!
The step cycle (spec/40_step_cycle.md): what `RUNSTATE` says after a step (R127).
-/

namespace Sys2Proof.Machine

/-- The test at the end of a step, in the words of R127. -/
theorem State.waits_iff {s : State} {i : Instr} :
    s.waits i = true ↔ (∃ x, i = .waitKey x) ∧ s.k = 0 := by
  unfold State.waits
  split
  · next x => simp
  · next hne => exact iff_of_false Bool.false_ne_true fun ⟨⟨x, hx⟩, _⟩ => hne x hx

/-- No instruction writes the sampled key vector. -/
theorem k_not_mem_fieldsWritten (i : Instr) : Field.k ∉ fieldsWritten i := by
  cases i <;> simp [fieldsWritten]

/-- The key vector sampled for a step stays through its instruction, fault or not (R122). -/
theorem exec_next_k {i : Instr} {s t : State} (h : exec i s = .next t) : t.k = s.k := by
  rcases exec_cases i s with ⟨f, -, he⟩ | ⟨u, he, hsame, -⟩
  · cases he.symm.trans h
    exact State.raise_k s f
  · cases he.symm.trans h
    exact hsame .k (k_not_mem_fieldsWritten i)

/-- A step that fetched `i` is `i` executed from the sampled state, and ended (R120). -/
theorem exec_of_step_next {s t : State} {i : Instr} (h : s.halted = false)
    (hf : s.fetchInstr = .ok i) (hstep : step s = .next t) :
    ∃ u, exec i s.beginStep = .next u ∧ t = u.endStep i := by
  rcases step_cases hstep with ⟨hh, -⟩ | ⟨-, f, hf', -⟩ | ⟨-, j, u, hf', hexec, ht⟩
  · simp [h] at hh
  · cases hf.symm.trans hf'
  · cases hf.symm.trans hf'
    exact ⟨u, hexec, ht⟩

/-- Settles O14: the instruction leaves the sampled key vector alone, so the test at the end of the
step still reads what `beginStep` sampled. -/
theorem runStateAfterAStep : Obligations.RunStateAfterAStep := by
  intro s t i hrun hfetch hstep ht
  obtain ⟨u, hexec, rfl⟩ := exec_of_step_next hrun hfetch hstep
  have hk : u.k = s.nextInput.keys := exec_next_k hexec
  have hu : u.halted = false := by simpa using ht
  obtain ⟨-, -, hrs, -⟩ := State.endStep_of_running (i := i) hu
  rw [hrs, ← hk, ← State.waits_iff]
  exact ⟨fun h => if_pos h, fun h => if_neg h⟩

end Sys2Proof.Machine
end

section
/-!
The register skips (spec/41_control_flow.md, R143 to R145): a row of the opcode map decodes the words
that select it, and a skip moves `PC` alone.
-/

namespace Sys2Proof.Machine

/-- A row of the opcode map decodes the words that select it (R94). -/
theorem rowDecodes_of_mem {r : OpRow} (h : r ∈ opcodeMap) : RowDecodes r.mask r.value r.build :=
  fun _ hw => decode_of_selects h (by simpa [OpRow.selects] using hw)

/-- A skip writes `PC` and nothing else (R125). -/
theorem State.sameBut_skipIf (s : State) (c : Bool) : s.sameBut [.pc] (s.skipIf c) := by
  intro f hf
  cases f <;> simp_all [Field.same]

/-- An instruction that ends in a skip on `p` completes with the two targets of R148. -/
theorem completes_of_skipIf {i : Instr} {s : State} {c : Bool} {p : Prop} [Decidable p]
    (hexec : exec i s = .next (s.skipIf c)) (hc : c = true ↔ p) :
    Completes i s fun t => t.pc = (if p then s.pc + 4 else s.pc + 2) ∧ s.sameBut [.pc] t :=
  ⟨s.skipIf c, hexec, by simp [hc], s.sameBut_skipIf c⟩

/-- `SkipEqImm` skips on `Vx = kk`. -/
theorem exec_skipEqImm (s : State) (x : Reg) (kk : Byte) :
    exec (.skipEqImm x kk) s = .next (s.skipIf (s.reg x == kk)) := rfl

/-- `SkipNeqImm` skips on `Vx ≠ kk`. -/
theorem exec_skipNeqImm (s : State) (x : Reg) (kk : Byte) :
    exec (.skipNeqImm x kk) s = .next (s.skipIf (s.reg x != kk)) := rfl

/-- `SkipEqReg` skips on `Vx = Vy`. -/
theorem exec_skipEqReg (s : State) (x y : Reg) :
    exec (.skipEqReg x y) s = .next (s.skipIf (s.reg x == s.reg y)) := rfl

/-- Settles O33: both words select their row, and both instructions end in a skip. -/
theorem skipsOnAnImmediate : Obligations.SkipsOnAnImmediate :=
  ⟨rowDecodes_of_mem (List.mem_of_getElem? (i := 4) rfl),
    rowDecodes_of_mem (List.mem_of_getElem? (i := 5) rfl),
    fun s x kk => ⟨completes_of_skipIf (exec_skipEqImm s x kk) beq_iff_eq,
      completes_of_skipIf (exec_skipNeqImm s x kk) bne_iff_ne⟩⟩

/-- A word has the leading digit of the row it selects: every row compares that digit (R95). -/
theorem leadingDigit_of_selects {r : OpRow} {w : Word} (hr : r ∈ opcodeMap)
    (hsel : r.selects w = true) : w &&& 0xF000 = r.value &&& 0xF000 := by
  have hmask : ∀ r ∈ opcodeMap, r.mask &&& 0xF000 = 0xF000 := by
    unfold opcodeMap opRowsLow opRowsAlu opRowsMid opRowsHigh
    decide
  have hvalue : w &&& r.mask = r.value := by simpa [OpRow.selects] using hsel
  rw [← hvalue, BitVec.and_assoc, hmask r hr]

/-- The one row with the leading digit 5 is `5xy0` (R95). -/
theorem opcodeMap_digit5 :
    ∀ r ∈ opcodeMap, r.value &&& 0xF000 = 0x5000 → r.mask = 0xF00F ∧ r.value = 0x5000 := by
  unfold opcodeMap opRowsLow opRowsAlu opRowsMid opRowsHigh
  decide

/-- The mask of a `5xy0` or `8xyN` row keeps the low digit of the word. -/
theorem fieldN_and_xyMask (w : Word) : fieldN (w &&& 0xF00F) = fieldN w := by
  have hmask : (0xF00F : Word).extractLsb' 0 4 = BitVec.allOnes 4 := by decide
  rw [fieldN, BitVec.extractLsb'_and, hmask, BitVec.and_allOnes, fieldN]

/-- A word `5xyN` selects no row where `N` is not 0 (R98). -/
theorem no_row_selects_digit5 {w : Word} (h5 : w &&& 0xF000 = 0x5000) (hn : fieldN w ≠ 0) :
    ∀ r ∈ opcodeMap, r.selects w = false := by
  intro r hr
  by_contra hsel
  rw [Bool.not_eq_false] at hsel
  obtain ⟨hmask, hvalue⟩ := opcodeMap_digit5 r hr (leadingDigit_of_selects hr hsel ▸ h5)
  have hw : w &&& 0xF00F = 0x5000 := by simpa [OpRow.selects, hmask, hvalue] using hsel
  exact hn (by rw [← fieldN_and_xyMask, hw]; decide)

/-- Settles O34: `5xy0` selects its row and `5xyN` none, the instruction ends in a skip, and `Vx = Vy`
holds by itself where `x = y`. -/
theorem skipEqRegComparesRegisters : Obligations.SkipEqRegComparesRegisters := by
  refine ⟨rowDecodes_of_mem (List.mem_of_getElem? (i := 6) rfl),
    fun w h5 hn => decode_eq_error_iff.2 ⟨rfl, no_row_selects_digit5 h5 hn⟩, fun s x y => ?_⟩
  obtain ⟨t, hexec, hpc, hsame⟩ := completes_of_skipIf (exec_skipEqReg s x y) beq_iff_eq
  refine ⟨t, hexec, hpc, ?_, hsame⟩
  rintro rfl
  rwa [if_pos rfl] at hpc

end Sys2Proof.Machine
end

section
/-!
Register ALU (spec/42_register_alu.md, R161 and R162): an instruction that writes its result to `Vx`
and no flag changes `Vx` and `PC` alone.
-/

namespace Sys2Proof.Machine

/-- Narrowing a natural number keeps its low byte (R173). -/
theorem toNat_narrow (n : Nat) : (narrow n).toNat = n % 256 := by
  rw [narrow, BitVec.ofInt_natCast, BitVec.toNat_ofNat]

/-- Writing a result leaves every register but its destination alone. -/
theorem State.sameRegsBut_writeResult (s : State) (x : Reg) (b : Byte) :
    s.sameRegsBut [x] (s.writeResult x b) := by
  intro r hr
  have hne : x ≠ r := fun h => hr (h ▸ List.mem_singleton_self x)
  rw [State.reg_writeResult, if_neg hne]

/-- Writing a result changes the register file and `PC`, and nothing else. -/
theorem State.sameBut_writeResult (s : State) (x : Reg) (b : Byte) :
    s.sameBut [.v, .pc] (s.writeResult x b) := by
  intro f hf
  cases f <;> simp_all [Field.same]

/-- An instruction that ends in a write of `b` to `Vx` completes with the whole effect and frame of
that write; `p` is what is asked of the value. -/
theorem completes_of_writeResult {i : Instr} {s : State} {x : Reg} {b : Byte} {p : Byte → Prop}
    (hexec : exec i s = .next (s.writeResult x b)) (hp : p b) :
    Completes i s fun t =>
      p (t.reg x) ∧ s.sameRegsBut [x] t ∧ t.pc = s.pc + 2 ∧ s.sameBut [.v, .pc] t :=
  ⟨s.writeResult x b, hexec, by simpa using hp, s.sameRegsBut_writeResult x b, by simp,
    s.sameBut_writeResult x b⟩

/-- `SetImm` writes `kk` to `Vx`. -/
theorem exec_setImm (s : State) (x : Reg) (kk : Byte) :
    exec (.setImm x kk) s = .next (s.writeResult x kk) := rfl

/-- `AddImm` writes the exact sum, narrowed, to `Vx`. -/
theorem exec_addImm (s : State) (x : Reg) (kk : Byte) :
    exec (.addImm x kk) s =
      .next (s.writeResult x (narrow ((s.reg x).toNat + kk.toNat : Nat))) := rfl

/-- Settles O36: the word selects its row, and the instruction ends in a write of `kk`. -/
theorem setImmWritesTheImmediate : Obligations.SetImmWritesTheImmediate :=
  ⟨rowDecodes_of_mem (List.mem_of_getElem? (i := 7) rfl),
    fun s x kk => completes_of_writeResult (p := (· = kk)) (exec_setImm s x kk) rfl⟩

/-- Settles O37: the word selects its row, and the instruction ends in a write of the narrowed sum. -/
theorem addImmWrapsWithoutAFlag : Obligations.AddImmWrapsWithoutAFlag :=
  ⟨rowDecodes_of_mem (List.mem_of_getElem? (i := 8) rfl),
    fun s x kk => completes_of_writeResult
      (p := fun b => b.toNat = ((s.reg x).toNat + kk.toNat) % 256) (exec_addImm s x kk)
      (toNat_narrow _)⟩

end Sys2Proof.Machine
end

section
/-!
The index register (spec/43_index_memory.md, R190): `SetIndex` writes its address field, zero-extended,
to `I` and moves `PC` past the word.
-/

namespace Sys2Proof.Machine

/-- Zero-extension keeps the value of an address. -/
theorem toNat_addrWord (a : Addr) : (addrWord a).toNat = a.toNat :=
  BitVec.toNat_setWidth_of_le (by decide)

/-- Writing `I` and advancing changes `I` and `PC`, and nothing else. -/
theorem State.sameBut_setIThenAdvance (s : State) (a : Word) :
    s.sameBut [.i, .pc] { s with i := a }.advance := by
  intro f hf
  cases f <;> simp_all [Field.same]

/-- `SetIndex` writes `nnn` to `I` and advances. -/
theorem exec_setIndex (s : State) (nnn : Addr) :
    exec (.setIndex nnn) s = .next { s with i := addrWord nnn }.advance := rfl

/-- Settles O43: the word selects its row, and `I` holds a 12-bit address, which is always below the
size of memory. -/
theorem setIndexWritesTheAddress : Obligations.SetIndexWritesTheAddress := by
  refine ⟨rowDecodes_of_mem (List.mem_of_getElem? (i := 19) rfl), fun s nnn => ?_⟩
  have hi : ({ s with i := addrWord nnn }.advance).i.toNat = nnn.toNat := toNat_addrWord nnn
  exact ⟨_, exec_setIndex s nnn, hi, hi ▸ nnn.isLt, State.advance_pc _,
    s.sameBut_setIThenAdvance (addrWord nnn)⟩

end Sys2Proof.Machine
end

section
/-!
The delay timer (spec/45_keyboard_timers.md, R233): `GetDelay` copies `DT` before the tick that ends
its step (R126).
-/

namespace Sys2Proof.Machine

/-- A whole step of an instruction is that instruction from the sampled state, ended (R120). -/
theorem stepCompletes_of_exec {i : Instr} {s u : State} {p : State → Prop}
    (hexec : exec i s.beginStep = .next u) (hp : s.halted = false → p (u.endStep i)) :
    StepCompletes i s p :=
  fun hrun hfetch => ⟨u.endStep i, step_of_fetch_ok hrun hfetch hexec, hp hrun⟩

/-- The end of a step that did not fault takes one off the delay timer, floor zero (R126). -/
theorem State.endStep_dt_toNat {s : State} {i : Instr} (h : s.halted = false) :
    (s.endStep i).dt.toNat = s.dt.toNat - 1 := by
  obtain ⟨hdt, -⟩ := State.endStep_of_running (i := i) h
  rw [hdt, tickDown_toNat]

/-- Writing a result does not set the latch. -/
@[simp] theorem State.halted_writeResult (s : State) (x : Reg) (b : Byte) :
    (s.writeResult x b).halted = s.halted := rfl

/-- `GetDelay` writes `DT` to `Vx`. -/
theorem exec_getDelay (s : State) (x : Reg) :
    exec (.getDelay x) s = .next (s.writeResult x s.dt) := rfl

/-- Settles O57: the word selects its row, the instruction ends in a write of `DT`, and only the end
of the step, which writes no register, ticks `DT`. -/
theorem getDelayReadsBeforeTheTick : Obligations.GetDelayReadsBeforeTheTick := by
  refine ⟨rowDecodes_of_mem (List.mem_of_getElem? (i := 25) rfl), fun s x =>
    ⟨completes_of_writeResult (p := (· = s.dt)) (exec_getDelay s x) rfl,
      stepCompletes_of_exec (exec_getDelay s.beginStep x) fun hrun => ⟨?_, ?_⟩⟩⟩
  · simp
  · have hu : (s.beginStep.writeResult x s.beginStep.dt).halted = false := by simpa using hrun
    simpa using State.endStep_dt_toNat (i := .getDelay x) hu

end Sys2Proof.Machine
end

section
/-!
Decoding (spec/30_encoding.md): an encoded operand is found again in its field, a word is the sum of
its fields, and the rows of the opcode map are told apart by the digits they compare.
-/

namespace Sys2Proof

/-! ### The fields as numbers (R91) -/

theorem fieldX_val (w : Word) : (fieldX w).val = w.toNat / 256 % 16 := by
  simp [fieldX, Nat.shiftRight_eq_div_pow]

theorem fieldY_val (w : Word) : (fieldY w).val = w.toNat / 16 % 16 := by
  simp [fieldY, Nat.shiftRight_eq_div_pow]

theorem fieldN_toNat (w : Word) : (fieldN w).toNat = w.toNat % 16 := by
  simp [fieldN, BitVec.extractLsb'_toNat]

theorem fieldKK_toNat (w : Word) : (fieldKK w).toNat = w.toNat % 256 := by
  simp [fieldKK, BitVec.extractLsb'_toNat]

theorem fieldNNN_toNat (w : Word) : (fieldNNN w).toNat = w.toNat % 4096 := by
  simp [fieldNNN, BitVec.extractLsb'_toNat]

/-- Settles O2: each field is a quotient and a remainder of the word, and `kk` and `nnn` are numbers
written in the digits `y`, `n` and `x`, `y`, `n`. -/
theorem fieldsAreDigitsOfTheWord : Obligations.FieldsAreDigitsOfTheWord := by
  intro w
  rw [fieldX_val, fieldY_val, fieldN_toNat, fieldKK_toNat, fieldNNN_toNat]
  refine ⟨rfl, rfl, rfl, rfl, rfl, ?_, ?_⟩ <;> omega

/-- Settles O1: the ten words are decoded by evaluation. -/
theorem sampleWordsDecode : Obligations.SampleWordsDecode := by
  unfold Obligations.SampleWordsDecode
  decide

/-- The row at a place of the opcode map decodes the words that select it (R94). -/
theorem rowDecodes_at (j : Nat) {r : OpRow} (h : opcodeMap[j]? = some r) :
    Machine.RowDecodes r.mask r.value r.build :=
  Machine.rowDecodes_of_mem (List.mem_of_getElem? h)

/-- Settles O3: the 34 rows are those of the opcode map, in its order, and no word selects two. -/
theorem opcodeMapDecidesEveryWord : Obligations.OpcodeMapDecidesEveryWord :=
  ⟨rowDecodes_at 0 rfl, rowDecodes_at 1 rfl, rowDecodes_at 2 rfl, rowDecodes_at 3 rfl,
    rowDecodes_at 4 rfl, rowDecodes_at 5 rfl, rowDecodes_at 6 rfl, rowDecodes_at 7 rfl,
    rowDecodes_at 8 rfl, rowDecodes_at 9 rfl, rowDecodes_at 10 rfl, rowDecodes_at 11 rfl,
    rowDecodes_at 12 rfl, rowDecodes_at 13 rfl, rowDecodes_at 14 rfl, rowDecodes_at 15 rfl,
    rowDecodes_at 16 rfl, rowDecodes_at 17 rfl, rowDecodes_at 18 rfl, rowDecodes_at 19 rfl,
    rowDecodes_at 20 rfl, rowDecodes_at 21 rfl, rowDecodes_at 22 rfl, rowDecodes_at 23 rfl,
    rowDecodes_at 24 rfl, rowDecodes_at 25 rfl, rowDecodes_at 26 rfl, rowDecodes_at 27 rfl,
    rowDecodes_at 28 rfl, rowDecodes_at 29 rfl, rowDecodes_at 30 rfl, rowDecodes_at 31 rfl,
    rowDecodes_at 32 rfl, rowDecodes_at 33 rfl⟩

/-! ### An operand put into a word is found in its field (R91, R100) -/

/-- `x << 8` shows in the field `x` alone. -/
theorem extract_x (x : Reg) :
    (BitVec.ofNat 16 x.val <<< 8).extractLsb' 8 4 = BitVec.ofFin x ∧
      (BitVec.ofNat 16 x.val <<< 8).extractLsb' 4 4 = 0#4 ∧
      (BitVec.ofNat 16 x.val <<< 8).extractLsb' 0 4 = 0#4 ∧
      (BitVec.ofNat 16 x.val <<< 8).extractLsb' 0 8 = 0#8 := by
  revert x; decide

/-- `y << 4` shows in the field `y`, and neither in `x` nor in `n`. -/
theorem extract_y (y : Reg) :
    (BitVec.ofNat 16 y.val <<< 4).extractLsb' 8 4 = 0#4 ∧
      (BitVec.ofNat 16 y.val <<< 4).extractLsb' 4 4 = BitVec.ofFin y ∧
      (BitVec.ofNat 16 y.val <<< 4).extractLsb' 0 4 = 0#4 := by
  revert y; decide

/-- `n` shows in the field `n`, and neither in `x` nor in `y`. -/
theorem extract_n (n : Nibble) :
    (n.setWidth 16).extractLsb' 8 4 = 0#4 ∧ (n.setWidth 16).extractLsb' 4 4 = 0#4 ∧
      (n.setWidth 16).extractLsb' 0 4 = n := by
  revert n; decide

/-- `kk` shows in the field `kk` and not in `x`. -/
theorem extract_kk (kk : Byte) :
    (kk.setWidth 16).extractLsb' 8 4 = 0#4 ∧ (kk.setWidth 16).extractLsb' 0 8 = kk := by
  revert kk; decide

/-- `nnn` shows in the field `nnn`. -/
theorem extract_nnn (nnn : Addr) : (nnn.setWidth 16).extractLsb' 0 12 = nnn := by
  refine BitVec.eq_of_toNat_eq ?_
  have h := nnn.isLt
  rw [BitVec.extractLsb'_toNat, BitVec.toNat_setWidth, Nat.shiftRight_zero]
  omega

theorem fieldNNN_encodeNNN {v : Word} (hv : v.extractLsb' 0 12 = 0#12) (nnn : Addr) :
    fieldNNN (encodeNNN v nnn) = nnn := by
  rw [fieldNNN, encodeNNN, BitVec.extractLsb'_or, hv, extract_nnn, BitVec.zero_or]

theorem fieldX_encodeX {v : Word} (hv : v.extractLsb' 8 4 = 0#4) (x : Reg) :
    fieldX (encodeX v x) = x := by
  obtain ⟨hx, -⟩ := extract_x x
  rw [fieldX, encodeX, BitVec.extractLsb'_or, hv, hx, BitVec.zero_or]

theorem fieldX_encodeXKK {v : Word} (hv : v.extractLsb' 8 4 = 0#4) (x : Reg) (kk : Byte) :
    fieldX (encodeXKK v x kk) = x := by
  obtain ⟨hx, -⟩ := extract_x x
  obtain ⟨hkk, -⟩ := extract_kk kk
  rw [fieldX, encodeXKK, BitVec.extractLsb'_or, BitVec.extractLsb'_or, hv, hx, hkk, BitVec.zero_or,
    BitVec.or_zero]

theorem fieldKK_encodeXKK {v : Word} (hv : v.extractLsb' 0 8 = 0#8) (x : Reg) (kk : Byte) :
    fieldKK (encodeXKK v x kk) = kk := by
  obtain ⟨-, -, -, hx⟩ := extract_x x
  obtain ⟨-, hkk⟩ := extract_kk kk
  rw [fieldKK, encodeXKK, BitVec.extractLsb'_or, BitVec.extractLsb'_or, hv, hx, hkk, BitVec.zero_or,
    BitVec.zero_or]

theorem fieldX_encodeXY {v : Word} (hv : v.extractLsb' 8 4 = 0#4) (x y : Reg) :
    fieldX (encodeXY v x y) = x := by
  obtain ⟨hx, -⟩ := extract_x x
  obtain ⟨hy, -⟩ := extract_y y
  rw [fieldX, encodeXY, BitVec.extractLsb'_or, BitVec.extractLsb'_or, hv, hx, hy, BitVec.zero_or,
    BitVec.or_zero]

theorem fieldY_encodeXY {v : Word} (hv : v.extractLsb' 4 4 = 0#4) (x y : Reg) :
    fieldY (encodeXY v x y) = y := by
  obtain ⟨-, hx, -⟩ := extract_x x
  obtain ⟨-, hy, -⟩ := extract_y y
  rw [fieldY, encodeXY, BitVec.extractLsb'_or, BitVec.extractLsb'_or, hv, hx, hy, BitVec.zero_or,
    BitVec.zero_or]

/-- A word with the digit `n` is one without it, with `n` put in. -/
theorem encodeXYN_eq (v : Word) (x y : Reg) (n : Nibble) :
    encodeXYN v x y n = encodeXY v x y ||| n.setWidth 16 := rfl

theorem fieldX_encodeXYN {v : Word} (hv : v.extractLsb' 8 4 = 0#4) (x y : Reg) (n : Nibble) :
    fieldX (encodeXYN v x y n) = x := by
  obtain ⟨hn, -⟩ := extract_n n
  rw [encodeXYN_eq, fieldX, BitVec.extractLsb'_or, hn, BitVec.or_zero]
  exact fieldX_encodeXY hv x y

theorem fieldY_encodeXYN {v : Word} (hv : v.extractLsb' 4 4 = 0#4) (x y : Reg) (n : Nibble) :
    fieldY (encodeXYN v x y n) = y := by
  obtain ⟨-, hn, -⟩ := extract_n n
  rw [encodeXYN_eq, fieldY, BitVec.extractLsb'_or, hn, BitVec.or_zero]
  exact fieldY_encodeXY hv x y

theorem fieldN_encodeXYN {v : Word} (hv : v.extractLsb' 0 4 = 0#4) (x y : Reg) (n : Nibble) :
    fieldN (encodeXYN v x y n) = n := by
  obtain ⟨-, -, hx, -⟩ := extract_x x
  obtain ⟨-, -, hy⟩ := extract_y y
  obtain ⟨-, -, hn⟩ := extract_n n
  rw [fieldN, encodeXYN, BitVec.extractLsb'_or, BitVec.extractLsb'_or, BitVec.extractLsb'_or, hv,
    hx, hy, hn, BitVec.zero_or, BitVec.zero_or, BitVec.zero_or]

/-! ### Decoding an encoded instruction -/

/-- Every instruction's word selects the instruction's row (R94, R100). -/
theorem encode_selects_row (i : Instr) : Laws.SelectsItsRow.Statement i := by
  cases i
  case clearScreen => exact Laws.SelectsItsRow.clearScreen
  case ret => exact Laws.SelectsItsRow.ret
  case jump nnn => exact Laws.SelectsItsRow.jump nnn
  case call nnn => exact Laws.SelectsItsRow.call nnn
  case skipEqImm x kk => exact Laws.SelectsItsRow.skipEqImm x kk
  case skipNeqImm x kk => exact Laws.SelectsItsRow.skipNeqImm x kk
  case skipEqReg x y => exact Laws.SelectsItsRow.skipEqReg x y
  case setImm x kk => exact Laws.SelectsItsRow.setImm x kk
  case addImm x kk => exact Laws.SelectsItsRow.addImm x kk
  case copy x y => exact Laws.SelectsItsRow.copy x y
  case or x y => exact Laws.SelectsItsRow.or x y
  case and x y => exact Laws.SelectsItsRow.and x y
  case xor x y => exact Laws.SelectsItsRow.xor x y
  case addReg x y => exact Laws.SelectsItsRow.addReg x y
  case subXY x y => exact Laws.SelectsItsRow.subXY x y
  case shR x y => exact Laws.SelectsItsRow.shR x y
  case subYX x y => exact Laws.SelectsItsRow.subYX x y
  case shL x y => exact Laws.SelectsItsRow.shL x y
  case skipNeqReg x y n => exact Laws.SelectsItsRow.skipNeqReg x y n
  case setIndex nnn => exact Laws.SelectsItsRow.setIndex nnn
  case jumpV0 nnn => exact Laws.SelectsItsRow.jumpV0 nnn
  case random x kk => exact Laws.SelectsItsRow.random x kk
  case drawSprite x y n => exact Laws.SelectsItsRow.drawSprite x y n
  case skipKeyDown x => exact Laws.SelectsItsRow.skipKeyDown x
  case skipKeyUp x => exact Laws.SelectsItsRow.skipKeyUp x
  case getDelay x => exact Laws.SelectsItsRow.getDelay x
  case waitKey x => exact Laws.SelectsItsRow.waitKey x
  case setDelay x => exact Laws.SelectsItsRow.setDelay x
  case setSound x => exact Laws.SelectsItsRow.setSound x
  case addIndex x => exact Laws.SelectsItsRow.addIndex x
  case fontAddr x => exact Laws.SelectsItsRow.fontAddr x
  case storeBCD x => exact Laws.SelectsItsRow.storeBCD x
  case storeRegs x => exact Laws.SelectsItsRow.storeRegs x
  case loadRegs x => exact Laws.SelectsItsRow.loadRegs x

/-- What a row builds with one address operand is what was encoded. -/
theorem build_encodeNNN (f : Addr → Instr) {v : Word} (nnn : Addr)
    (hv : v.extractLsb' 0 12 = 0#12) :
    f (fieldNNN (encodeNNN v nnn)) = f nnn := by rw [fieldNNN_encodeNNN hv]

theorem build_encodeX (f : Reg → Instr) {v : Word} (x : Reg) (hv : v.extractLsb' 8 4 = 0#4) :
    f (fieldX (encodeX v x)) = f x := by rw [fieldX_encodeX hv]

theorem build_encodeXKK (f : Reg → Byte → Instr) {v : Word} (x : Reg) (kk : Byte)
    (hx : v.extractLsb' 8 4 = 0#4) (hkk : v.extractLsb' 0 8 = 0#8) :
    f (fieldX (encodeXKK v x kk)) (fieldKK (encodeXKK v x kk)) = f x kk := by
  rw [fieldX_encodeXKK hx, fieldKK_encodeXKK hkk]

theorem build_encodeXY (f : Reg → Reg → Instr) {v : Word} (x y : Reg)
    (hx : v.extractLsb' 8 4 = 0#4) (hy : v.extractLsb' 4 4 = 0#4) :
    f (fieldX (encodeXY v x y)) (fieldY (encodeXY v x y)) = f x y := by
  rw [fieldX_encodeXY hx, fieldY_encodeXY hy]

theorem build_encodeXYN (f : Reg → Reg → Nibble → Instr) {v : Word} (x y : Reg) (n : Nibble)
    (hx : v.extractLsb' 8 4 = 0#4) (hy : v.extractLsb' 4 4 = 0#4) (hn : v.extractLsb' 0 4 = 0#4) :
    f (fieldX (encodeXYN v x y n)) (fieldY (encodeXYN v x y n)) (fieldN (encodeXYN v x y n)) =
      f x y n := by
  rw [fieldX_encodeXYN hx, fieldY_encodeXYN hy, fieldN_encodeXYN hn]

/-- The row an instruction stands in builds the instruction from its word. -/
theorem build_encode (i : Instr) {r : OpRow} (h : opcodeMap[Laws.SelectsItsRow.row i]? = some r) :
    r.build (encode i) = i := by
  cases i <;> cases h
  case clearScreen | ret => rfl
  case jump nnn | call nnn | setIndex nnn | jumpV0 nnn => exact build_encodeNNN _ nnn rfl
  case skipEqImm x kk | skipNeqImm x kk | setImm x kk | addImm x kk | random x kk =>
    exact build_encodeXKK _ x kk rfl rfl
  case skipEqReg x y | copy x y | or x y | and x y | xor x y | addReg x y | subXY x y | shR x y |
      subYX x y | shL x y =>
    exact build_encodeXY _ x y rfl rfl
  case skipNeqReg x y n | drawSprite x y n => exact build_encodeXYN _ x y n rfl rfl rfl
  all_goals exact build_encodeX _ _ rfl

/-- The word of an instruction decodes to it. -/
theorem decode_encode (i : Instr) : decode (encode i) = .ok i := by
  obtain ⟨r, hr, hsel⟩ := encode_selects_row i
  rw [decode_of_selects (List.mem_of_getElem? hr) hsel, build_encode i hr]

/-- Settles O4: the word of an instruction selects the instruction's row and holds its operands in
their fields; its two bytes are the word's halves. -/
theorem decodeOfEncodeIsTheInstruction : Obligations.DecodeOfEncodeIsTheInstruction := by
  refine ⟨decode_encode, fun i rest => ?_⟩
  rw [encodeBytes, bytesOfWord, List.cons_append, List.cons_append, List.nil_append, decodeBytes,
    wordOfBytes_bytes, decode_encode, Except.map]

/-! ### Encoding a decoded word -/

/-- The bits of a word at the places of a field, put back where they were. -/
theorem extract_shifted (w mask : Word) (p n : Nat)
    (hmask : ∀ j : Fin 16, mask.getLsbD j = decide (p ≤ j.val ∧ j.val < p + n)) :
    (w.extractLsb' p n).setWidth 16 <<< p = w &&& mask := by
  refine BitVec.eq_of_getLsbD_eq fun j hj => ?_
  rw [BitVec.getLsbD_and, hmask ⟨j, hj⟩]
  by_cases hp : p ≤ j
  · have hlt : j - p < n ↔ j < p + n := by omega
    simp [hj, hp, Nat.not_lt.2 hp, hlt, Bool.and_comm]
  · simp [hp, Nat.not_le.1 hp]

theorem x_placed (w : Word) : BitVec.ofNat 16 (fieldX w).val <<< 8 = w &&& 0x0F00 := by
  have hx : BitVec.ofNat 16 (fieldX w).val = (w.extractLsb' 8 4).setWidth 16 :=
    BitVec.ofNat_toNat 16 _
  rw [hx, extract_shifted w 0x0F00 8 4 (by decide)]

theorem y_placed (w : Word) : BitVec.ofNat 16 (fieldY w).val <<< 4 = w &&& 0x00F0 := by
  have hy : BitVec.ofNat 16 (fieldY w).val = (w.extractLsb' 4 4).setWidth 16 :=
    BitVec.ofNat_toNat 16 _
  rw [hy, extract_shifted w 0x00F0 4 4 (by decide)]

theorem n_placed (w : Word) : (fieldN w).setWidth 16 = w &&& 0x000F := by
  rw [← extract_shifted w 0x000F 0 4 (by decide), BitVec.shiftLeft_zero, fieldN]

theorem kk_placed (w : Word) : (fieldKK w).setWidth 16 = w &&& 0x00FF := by
  rw [← extract_shifted w 0x00FF 0 8 (by decide), BitVec.shiftLeft_zero, fieldKK]

theorem nnn_placed (w : Word) : (fieldNNN w).setWidth 16 = w &&& 0x0FFF := by
  rw [← extract_shifted w 0x0FFF 0 12 (by decide), BitVec.shiftLeft_zero, fieldNNN]

theorem encodeNNN_fields {w v : Word} (h : w &&& 0xF000 = v) : encodeNNN v (fieldNNN w) = w := by
  rw [encodeNNN, ← h, nnn_placed, ← BitVec.and_or_distrib_left]
  exact BitVec.and_allOnes

theorem encodeXKK_fields {w v : Word} (h : w &&& 0xF000 = v) :
    encodeXKK v (fieldX w) (fieldKK w) = w := by
  rw [encodeXKK, ← h, x_placed, kk_placed, ← BitVec.and_or_distrib_left,
    ← BitVec.and_or_distrib_left]
  exact BitVec.and_allOnes

theorem encodeXYN_fields {w v : Word} (h : w &&& 0xF000 = v) :
    encodeXYN v (fieldX w) (fieldY w) (fieldN w) = w := by
  rw [encodeXYN, ← h, x_placed, y_placed, n_placed, ← BitVec.and_or_distrib_left,
    ← BitVec.and_or_distrib_left, ← BitVec.and_or_distrib_left]
  exact BitVec.and_allOnes

theorem encodeXY_fields {w v : Word} (h : w &&& 0xF00F = v) :
    encodeXY v (fieldX w) (fieldY w) = w := by
  rw [encodeXY, ← h, x_placed, y_placed, ← BitVec.and_or_distrib_left,
    ← BitVec.and_or_distrib_left]
  exact BitVec.and_allOnes

theorem encodeX_fields {w v : Word} (h : w &&& 0xF0FF = v) : encodeX v (fieldX w) = w := by
  rw [encodeX, ← h, x_placed, ← BitVec.and_or_distrib_left]
  exact BitVec.and_allOnes

/-- The mask of a row and the fields it builds from make up the whole word. -/
theorem encode_build {r : OpRow} {w : Word} (hr : r ∈ opcodeMap) (hsel : r.selects w = true) :
    encode (r.build w) = w := by
  have hw : w &&& r.mask = r.value := by simpa [OpRow.selects] using hsel
  simp only [opcodeMap, opRowsLow, opRowsAlu, opRowsMid, opRowsHigh, List.mem_append, List.mem_cons,
    List.not_mem_nil, or_false] at hr
  obtain ((hlow | halu) | hmid) | hhigh := hr
  · obtain rfl | rfl | rfl | rfl | rfl | rfl | rfl | rfl | rfl := hlow
    · exact hw.symm.trans BitVec.and_allOnes
    · exact hw.symm.trans BitVec.and_allOnes
    · exact encodeNNN_fields hw
    · exact encodeNNN_fields hw
    · exact encodeXKK_fields hw
    · exact encodeXKK_fields hw
    · exact encodeXY_fields hw
    · exact encodeXKK_fields hw
    · exact encodeXKK_fields hw
  · obtain rfl | rfl | rfl | rfl | rfl | rfl | rfl | rfl | rfl := halu <;>
      exact encodeXY_fields hw
  · obtain rfl | rfl | rfl | rfl | rfl := hmid
    · exact encodeXYN_fields hw
    · exact encodeNNN_fields hw
    · exact encodeNNN_fields hw
    · exact encodeXKK_fields hw
    · exact encodeXYN_fields hw
  · obtain rfl | rfl | rfl | rfl | rfl | rfl | rfl | rfl | rfl | rfl | rfl := hhigh <;>
      exact encodeX_fields hw

/-- Settles O5: a word that decodes selects a row, whose mask and fields make up the word. -/
theorem encodeOfDecodeIsTheWord : Obligations.EncodeOfDecodeIsTheWord := by
  intro w i h
  obtain ⟨r, hr, hsel, rfl⟩ := decode_eq_ok_iff.1 h
  exact encode_build hr hsel

/-! ### The words of no row (R98) -/

/-- A word's leading digit, as the masks compare it. -/
theorem toNat_and_digit (w : Word) : (w &&& 0xF000).toNat = w.toNat / 4096 * 4096 := by
  have h := w.isLt
  rw [← extract_shifted w 0xF000 12 4 (by decide), BitVec.toNat_shiftLeft, BitVec.toNat_setWidth,
    BitVec.extractLsb'_toNat, Nat.shiftRight_eq_div_pow, Nat.shiftLeft_eq]
  omega

/-- Two masks that share no bit split what they keep of a word. -/
theorem toNat_and_or (w : Word) {a b : Word} (hab : a &&& b = 0#16) :
    (w &&& (a ||| b)).toNat = (w &&& a).toNat + (w &&& b).toNat := by
  have h : w &&& a &&& (w &&& b) = 0#16 := by
    rw [BitVec.and_assoc, ← BitVec.and_assoc a, BitVec.and_comm a w, BitVec.and_assoc w, hab,
      BitVec.and_zero, BitVec.and_zero]
  rw [BitVec.and_or_distrib_left, ← BitVec.add_eq_or_of_and_eq_zero _ _ h,
    BitVec.toNat_add_of_and_eq_zero h]

/-- What the rows `5xyN` and `8xyN` compare, as a number. -/
theorem toNat_and_digit_n (w : Word) :
    (w &&& 0xF00F).toNat = w.toNat / 4096 * 4096 + w.toNat % 16 := by
  have h := toNat_and_or w (a := 0xF000) (b := 0x000F) (by decide)
  rw [toNat_and_digit, ← n_placed, BitVec.toNat_setWidth_of_le (by decide), fieldN_toNat] at h
  exact h

/-- What the rows `ExNN` and `FxNN` compare, as a number. -/
theorem toNat_and_digit_kk (w : Word) :
    (w &&& 0xF0FF).toNat = w.toNat / 4096 * 4096 + w.toNat % 256 := by
  have h := toNat_and_or w (a := 0xF000) (b := 0x00FF) (by decide)
  rw [toNat_and_digit, ← kk_placed, BitVec.toNat_setWidth_of_le (by decide), fieldKK_toNat] at h
  exact h

/-- Comparing the digits a row compares, as numbers. -/
theorem OpRow.selects_eq_false_iff (r : OpRow) (w : Word) :
    r.selects w = false ↔ (w &&& r.mask).toNat ≠ r.value.toNat := by
  rw [OpRow.selects, beq_eq_false_iff_ne, ne_eq, ne_eq, BitVec.toNat_inj]

/-- Settles O6: written as numbers, the rows are comparisons of the leading digit, and of `n` or
`kk`; digit by digit they leave out what the table of R98 lists. -/
theorem unknownWordsAreTheListedOnes : Obligations.UnknownWordsAreTheListedOnes := by
  intro w
  have hall : w &&& 0xFFFF = w := BitVec.and_allOnes
  have hdigit : w.toNat / 4096 < 16 := by have := w.isLt; omega
  rw [decode_eq_error_iff, ← BitVec.toNat_inj.ne, ← BitVec.toNat_inj.ne, ← BitVec.toNat_inj.ne,
    fieldN_toNat, fieldKK_toNat]
  simp only [opcodeMap, opRowsLow, opRowsAlu, opRowsMid, opRowsHigh, List.forall_mem_append,
    List.forall_mem_cons, OpRow.selects_eq_false_iff, hall, toNat_and_digit, toNat_and_digit_n,
    toNat_and_digit_kk]
  generalize hd : w.toNat / 4096 = d at hdigit ⊢
  -- Of a digit outside the table every word selects a row, which `simp` finds.
  interval_cases d
  all_goals simp
  all_goals omega

end Sys2Proof
end

section
/-!
What an instruction and a step can do, from `exec_cases` and `step_cases`: a state that is not
halted was reached without a fault, and then only the fields the instruction writes have changed
(spec/40_step_cycle.md).
-/

namespace Sys2Proof.Machine

/-- A frame with more fields named follows from one with fewer. -/
theorem State.sameBut_mono {s t : State} {l l' : List Field} (h : s.sameBut l t) (hl : l ⊆ l') :
    s.sameBut l' t :=
  fun f hf => h f fun hmem => hf (hl hmem)

theorem Field.same_trans {f : Field} {s t u : State} (h : f.same s t) (h' : f.same t u) :
    f.same s u := by
  cases f <;> simp_all [Field.same]

/-- Frames one after another. -/
theorem State.sameBut_trans {s t u : State} {l l' : List Field} (h : s.sameBut l t)
    (h' : t.sameBut l' u) : s.sameBut (l ++ l') u := by
  intro f hf
  rw [List.mem_append, not_or] at hf
  exact Field.same_trans (h f hf.1) (h' f hf.2)

/-- An instruction that ends without a fault took none. -/
theorem not_raise_of_running {s t : State} {f : FaultLatch} {o : Host.Outcome State Fault Refusal}
    (ho : o = .next (s.raise f)) (hf : f.real) (h : o = .next t) (ht : t.halted = false) :
    False := by
  cases ho.symm.trans h
  simp [State.raise_halted hf] at ht

/-- No instruction writes the latch but by taking a fault. -/
theorem fault_not_mem_fieldsWritten (i : Instr) : Field.fault ∉ fieldsWritten i := by
  cases i <;> simp [fieldsWritten]

/-- An instruction that ends without a fault changes only the fields it writes. -/
theorem exec_next_running {i : Instr} {s t : State} (h : exec i s = .next t)
    (ht : t.halted = false) : s.sameBut (fieldsWritten i) t ∧ (s.mem.wf → t.mem.wf) := by
  rcases exec_cases i s with ⟨f, hreal, he⟩ | ⟨u, he, hu⟩
  · exact (not_raise_of_running he hreal h ht).elim
  · cases he.symm.trans h
    exact hu

/-- The sampled inputs, the host's schedule and the parameters: what nothing in a block writes. -/
def hostFields : List Field := [.k, .rnd, .inputs, .tick, .params]

/-- A fault leaves them alone (R258). -/
theorem State.raise_hostFields (s : State) (f : FaultLatch) {g : Field} (hg : g ∈ hostFields) :
    g.same s (s.raise f) := by
  simp only [hostFields, List.mem_cons, List.not_mem_nil, or_false] at hg
  obtain rfl | rfl | rfl | rfl | rfl := hg <;> rfl

/-- No instruction writes them, fault or not. -/
theorem exec_next_hostFields {i : Instr} {s t : State} {g : Field} (h : exec i s = .next t)
    (hg : g ∈ hostFields) : g.same s t := by
  rcases exec_cases i s with ⟨f, -, he⟩ | ⟨u, he, hsame, -⟩
  · cases he.symm.trans h
    exact s.raise_hostFields f hg
  · cases he.symm.trans h
    refine hsame g ?_
    simp only [hostFields, List.mem_cons, List.not_mem_nil, or_false] at hg
    obtain rfl | rfl | rfl | rfl | rfl := hg <;> cases i <;> simp [fieldsWritten]

/-- The start of a step changes the model's own fields and the strobe alone (R122). -/
theorem State.sameBut_beginStep (s : State) :
    s.sameBut [.k, .rnd, .inputs, .tick, .strobe] s.beginStep := by
  intro f hf
  cases f <;> simp_all [Field.same]

/-- The end of a step changes the timers and `RUNSTATE` alone, fault or not (R126, R127). -/
theorem State.sameBut_endStep (s : State) (i : Instr) :
    s.sameBut [.dt, .st, .runState] (s.endStep i) := by
  intro f hf
  cases f <;> simp_all [Field.same]

/-- A step that ends without a fault ran the instruction it fetched, which took no fault. -/
theorem step_next_running {s t : State} (h : step s = .next t) (ht : t.halted = false) :
    s.halted = false ∧ ∃ i u, s.fetchInstr = .ok i ∧ exec i s.beginStep = .next u ∧
      u.halted = false ∧ t = u.endStep i := by
  rcases step_cases h with ⟨hh, rfl⟩ | ⟨-, f, hf, rfl⟩ | ⟨hh, i, u, hf, hexec, rfl⟩
  · exact absurd (hh.symm.trans ht) (by decide)
  · exact absurd (by simpa [State.halted] using ht) (State.fetchInstr_error_code hf)
  · exact ⟨hh, i, u, hf, hexec, by simpa using ht, rfl⟩

/-- What a step changes besides the fields of its instruction. -/
def stepFields : List Field := [.k, .rnd, .inputs, .tick, .strobe, .dt, .st, .runState]

/-- The frame of a step that ends without a fault. -/
theorem step_next_frame {s t : State} (h : step s = .next t) (ht : t.halted = false) :
    ∃ i, s.fetchInstr = .ok i ∧ s.sameBut (fieldsWritten i ++ stepFields) t := by
  obtain ⟨-, i, u, hf, hexec, hu, rfl⟩ := step_next_running h ht
  refine ⟨i, hf, State.sameBut_mono (State.sameBut_trans (State.sameBut_trans s.sameBut_beginStep
    (exec_next_running hexec hu).1) (u.sameBut_endStep i)) ?_⟩
  intro f hf
  simp only [List.mem_append, stepFields, List.mem_cons, List.not_mem_nil, or_false] at hf ⊢
  tauto

/-! ### Which instructions write which fields -/

theorem fb_mem_fieldsWritten {i : Instr} :
    .fb ∈ fieldsWritten i → i = .clearScreen ∨ ∃ x y n, i = .drawSprite x y n := by
  cases i <;> simp [fieldsWritten]

theorem mem_mem_fieldsWritten {i : Instr} :
    .mem ∈ fieldsWritten i → (∃ x, i = .storeBCD x) ∨ ∃ x, i = .storeRegs x := by
  cases i <;> simp [fieldsWritten]

theorem stack_mem_fieldsWritten {i : Instr} : .stack ∈ fieldsWritten i → ∃ nnn, i = .call nnn := by
  cases i <;> simp [fieldsWritten]

theorem sp_mem_fieldsWritten {i : Instr} :
    .sp ∈ fieldsWritten i → (∃ nnn, i = .call nnn) ∨ i = .ret := by
  cases i <;> simp [fieldsWritten]

theorem dt_mem_fieldsWritten {i : Instr} : .dt ∈ fieldsWritten i → ∃ x, i = .setDelay x := by
  cases i <;> simp [fieldsWritten]

theorem st_mem_fieldsWritten {i : Instr} : .st ∈ fieldsWritten i → ∃ x, i = .setSound x := by
  cases i <;> simp [fieldsWritten]

theorem strobe_mem_fieldsWritten {i : Instr} :
    .strobe ∈ fieldsWritten i → ∃ x y n, i = .drawSprite x y n := by
  cases i <;> simp [fieldsWritten]

theorem i_mem_fieldsWritten {i : Instr} : .i ∈ fieldsWritten i →
    (∃ nnn, i = .setIndex nnn) ∨ (∃ x, i = .addIndex x) ∨ ∃ x, i = .fontAddr x := by
  cases i <;> simp [fieldsWritten]

/-! ### Frames of whole steps -/

/-- Settles O22: a fault and the parts of a step keep the parameters, and no instruction writes
them. -/
theorem parametersNeverChange : Obligations.ParametersNeverChange := by
  intro s t h
  rcases step_cases h with ⟨-, rfl⟩ | ⟨-, f, -, rfl⟩ | ⟨-, i, u, -, hexec, rfl⟩
  · rfl
  · rfl
  · have hparams : u.params = s.beginStep.params :=
      exec_next_hostFields (g := .params) hexec (by simp [hostFields])
    simpa using hparams

/-- Settles O23: the framebuffer is a field of `ClearScreen` and `DrawSprite` alone. -/
theorem onlyVideoInstructionsWriteTheScreen : Obligations.OnlyVideoInstructionsWriteTheScreen := by
  intro s t h ht hclear hdraw
  obtain ⟨i, hf, hsame⟩ := step_next_frame h ht
  refine hsame .fb fun hmem => ?_
  rcases fb_mem_fieldsWritten (by simpa [stepFields] using hmem) with rfl | ⟨x, y, n, rfl⟩
  · exact hclear hf
  · exact hdraw x y n hf

/-- Settles O24: memory is a field of the two stores, the stack of `Call`, and its depth of `Call`
and `Return`. -/
theorem onlyStoresWriteMemory : Obligations.OnlyStoresWriteMemory := by
  intro s t h ht
  obtain ⟨i, hf, hsame⟩ := step_next_frame h ht
  refine ⟨fun hbcd hregs => hsame .mem fun hmem => ?_, fun hcall => hsame .stack fun hmem => ?_,
    fun hcall hret => hsame .sp fun hmem => ?_⟩
  · rcases mem_mem_fieldsWritten (by simpa [stepFields] using hmem) with ⟨x, rfl⟩ | ⟨x, rfl⟩
    · exact hbcd x hf
    · exact hregs x hf
  · obtain ⟨nnn, rfl⟩ := stack_mem_fieldsWritten (by simpa [stepFields] using hmem)
    exact hcall nnn hf
  · rcases sp_mem_fieldsWritten (by simpa [stepFields] using hmem) with ⟨nnn, rfl⟩ | rfl
    · exact hcall nnn hf
    · exact hret hf

/-- Settles O59: `beginStep` takes the input, faults and instructions leave it, and a halted step
takes none. -/
theorem everyStepTakesOneInput : Obligations.EveryStepTakesOneInput := by
  intro s t h
  rcases step_cases h with ⟨hh, rfl⟩ | ⟨hh, f, -, rfl⟩ | ⟨hh, i, u, -, hexec, rfl⟩
  · simp [hh]
  · simp [hh]
  · have hk : u.k = s.beginStep.k := exec_next_k hexec
    have hrnd : u.rnd = s.beginStep.rnd :=
      exec_next_hostFields (g := .rnd) hexec (by simp [hostFields])
    have hinputs : u.inputs = s.beginStep.inputs :=
      exec_next_hostFields (g := .inputs) hexec (by simp [hostFields])
    have htick : u.tick = s.beginStep.tick :=
      exec_next_hostFields (g := .tick) hexec (by simp [hostFields])
    simp [hh, hk, hrnd, hinputs, htick]

/-! ### Timers, strobe and audio -/

/-- The end of a step that did not fault takes one off the sound timer, floor zero (R126). -/
theorem State.endStep_st_toNat {s : State} {i : Instr} (h : s.halted = false) :
    (s.endStep i).st.toNat = s.st.toNat - 1 := by
  obtain ⟨-, hst, -⟩ := State.endStep_of_running (i := i) h
  rw [hst, tickDown_toNat]

/-- Settles O12: the end of the step ticks both timers, and each is a field of one instruction. -/
theorem timersTickOncePerStep : Obligations.TimersTickOncePerStep := by
  intro s t i hrun hfetch hstep ht
  obtain ⟨u, hexec, rfl⟩ := exec_of_step_next hrun hfetch hstep
  have hu : u.halted = false := by simpa using ht
  obtain ⟨hsame, -⟩ := exec_next_running hexec hu
  rw [State.endStep_dt_toNat hu, State.endStep_st_toNat hu]
  refine ⟨⟨u, hexec, rfl, rfl⟩, fun hne => ?_, fun hne => ?_⟩
  · have hdt : u.dt = s.dt := hsame .dt fun hmem => by
      obtain ⟨x, rfl⟩ := dt_mem_fieldsWritten hmem
      exact hne x rfl
    rw [hdt]
  · have hst : u.st = s.st := hsame .st fun hmem => by
      obtain ⟨x, rfl⟩ := st_mem_fieldsWritten hmem
      exact hne x rfl
    rw [hst]

/-- A run that is safe for one step more is safe up to that step. -/
theorem SafeRun.of_succ {f : Nat → State} {n : Nat} (h : SafeRun f (n + 1)) : SafeRun f n :=
  ⟨h.1, fun j hj => h.2 j (Nat.lt_succ_of_lt hj)⟩

/-- Settles O13: by induction on the number of steps, each of which ticks the timer once. -/
theorem delayTimerDecaysOverARun : Obligations.DelayTimerDecaysOverARun := by
  intro f n
  induction n with
  | zero => exact fun _ _ => rfl
  | succ n ih =>
    intro hsafe hset
    have hn := ih hsafe.of_succ fun j hj => hset j (Nat.lt_succ_of_lt hj)
    obtain ⟨hstep, ht⟩ := hsafe.2 n (Nat.lt_succ_self n)
    obtain ⟨hrun, i, u, hfetch, -⟩ := step_next_running hstep ht
    have hne : ∀ x, i ≠ .setDelay x := fun x hi => hset n (Nat.lt_succ_self n) x (hi ▸ hfetch)
    obtain ⟨-, hdt, -⟩ := timersTickOncePerStep (f n) (f (n + 1)) i hrun hfetch hstep ht
    rw [hdt hne, hn, Nat.sub_sub]

/-- A `DrawSprite` that ends without a fault drew its bytes. -/
theorem exec_drawSprite_running {s t : State} {x y : Reg} {n : Nibble}
    (h : exec (.drawSprite x y n) s = .next t) (ht : t.halted = false) :
    (n.toNat = 0 ∨ s.i.toNat + n.toNat ≤ 4096) ∧ t = s.drawBytes x y (s.blockAt n.toNat) := by
  have he := execDrawSprite_eq s x y n
  split at he
  · next hin =>
    cases he.symm.trans h
    exact ⟨hin, rfl⟩
  · exact (not_raise_of_running he (latchOutOfBounds_real s.i.isLt) h ht).elim

/-- The strobe after an instruction that ended without a fault (R128). -/
theorem exec_next_strobe {i : Instr} {s t : State} (h : exec i s = .next t) (ht : t.halted = false)
    (hs : s.strobe = false) : t.strobe = true ↔ ∃ x y n, i = .drawSprite x y n := by
  constructor
  · intro hup
    by_contra hne
    have hsame : t.strobe = s.strobe :=
      (exec_next_running h ht).1 .strobe fun hmem => hne (strobe_mem_fieldsWritten hmem)
    simp [hsame, hs] at hup
  · rintro ⟨x, y, n, rfl⟩
    obtain ⟨-, rfl⟩ := exec_drawSprite_running h ht
    rfl

/-- An instruction that took a fault leaves the strobe down (R128). -/
theorem exec_next_halted_strobe {i : Instr} {s t : State} (h : exec i s = .next t)
    (hs : s.halted = false) (ht : t.halted = true) : t.strobe = false := by
  rcases exec_cases i s with ⟨f, -, he⟩ | ⟨u, he, hsame, -⟩
  · cases he.symm.trans h
    rfl
  · cases he.symm.trans h
    have hfault : t.fault = s.fault := hsame .fault (fault_not_mem_fieldsWritten i)
    rw [State.halted, hfault, ← State.halted, hs] at ht
    cases ht

/-- The audio signal in numbers (R272). -/
theorem State.audioOn_eq (s : State) : s.audioOn = decide (s.st.toNat ≠ 0) := by
  have hst : s.st = 0 ↔ s.st.toNat = 0 := BitVec.toNat_inj.symm
  rw [State.audioOn, Bool.eq_iff_iff, bne_iff_ne, decide_eq_true_iff, ne_eq, hst]

/-- Settles O16: only a `DrawSprite` that does not fault raises the strobe that `beginStep` lowered,
and the signal reads the sound timer that `endStep` ticked. -/
theorem strobeAndAudioAfterAStep : Obligations.StrobeAndAudioAfterAStep := by
  intro s t hrun hstep
  constructor
  · rcases step_cases hstep with ⟨hh, -⟩ | ⟨-, f, hf, rfl⟩ | ⟨-, i, u, hf, hexec, rfl⟩
    · exact absurd (hrun.symm.trans hh) (by decide)
    · simp [hf]
    · rw [State.halted_endStep, State.endStep_strobe]
      cases hu : u.halted with
      | false => simp [hf, exec_next_strobe hexec hu (State.beginStep_strobe s)]
      | true => simp [exec_next_halted_strobe hexec hrun hu]
  · intro ht
    obtain ⟨-, i, u, hf, hexec, hu, rfl⟩ := step_next_running hstep ht
    exact ⟨i, u, hf, hexec, by rw [State.audioOn_eq, State.endStep_st_toNat hu]⟩

end Sys2Proof.Machine
end

section
/-!
The tables of registers written and of next `PC` (spec/40_step_cycle.md, spec/42_register_alu.md),
and the invariant they give (spec/10_state.md): the instructions that may fault are inverted once
each, the others end in one of the shared writes.
-/

namespace Sys2Proof.Machine

/-! ### What the instructions that may fault did, where they did not -/

theorem exec_ret_running {s t : State} (h : exec .ret s = .next t) (ht : t.halted = false) :
    0 < s.sp.val ∧ s.stack[s.sp.val - 1]? = some t.pc ∧ t.sp.val = s.sp.val - 1 := by
  rcases Nat.eq_zero_or_pos s.sp.val with h0 | hpos
  · exact (not_raise_of_running (execReturn_fault s h0) latchStackUnderflow_real h ht).elim
  · obtain ⟨u, hu, hpc, hsp, -⟩ := execReturn_ok s hpos
    cases hu.symm.trans h
    exact ⟨hpos, hpc, hsp⟩

theorem exec_call_running {s t : State} {nnn : Addr} (h : exec (.call nnn) s = .next t)
    (ht : t.halted = false) :
    t.sp.val = s.sp.val + 1 ∧ t.pc = addrWord nnn ∧
      ∀ j (hj : j < 16), t.stack[j] = if j = s.sp.val then s.pc + 2 else s.stack[j] := by
  rcases Nat.lt_or_ge s.sp.val 16 with hlt | hge
  · obtain ⟨u, hu, hsp, hpc, hstack, -⟩ := execCall_ok s nnn hlt
    cases hu.symm.trans h
    exact ⟨hsp, hpc, hstack⟩
  · have h16 : s.sp.val = 16 := by omega
    exact (not_raise_of_running (execCall_fault s nnn h16) latchStackOverflow_real h ht).elim

theorem exec_loadRegs_running {s t : State} {x : Reg} (h : exec (.loadRegs x) s = .next t)
    (ht : t.halted = false) : t = (s.setRegBlock (s.blockAt (x.val + 1))).advance := by
  have he := execLoadRegs_eq s x
  split at he
  · cases he.symm.trans h
    rfl
  · exact (not_raise_of_running he (latchOutOfBounds_real s.i.isLt) h ht).elim

theorem exec_storeRegs_running {s t : State} {x : Reg} (h : exec (.storeRegs x) s = .next t)
    (ht : t.halted = false) : t.pc = s.pc + 2 := by
  rcases Nat.lt_or_ge (s.i.toNat + x.val) 4096 with hlt | hge
  · obtain ⟨u, hu, hpc, -⟩ := execStoreRegs_ok s x hlt
    cases hu.symm.trans h
    exact hpc
  · exact (not_raise_of_running (execStoreRegs_fault s x hge) (latchOutOfBounds_real s.i.isLt) h
      ht).elim

theorem exec_storeBCD_running {s t : State} {x : Reg} (h : exec (.storeBCD x) s = .next t)
    (ht : t.halted = false) : t.pc = s.pc + 2 := by
  rcases Nat.lt_or_ge (s.i.toNat + 2) 4096 with hlt | hge
  · obtain ⟨u, hu, hpc, -⟩ := execStoreBCD_ok s x hlt
    cases hu.symm.trans h
    exact hpc
  · exact (not_raise_of_running (execStoreBCD_fault s x hge) (latchOutOfBounds_real s.i.isLt) h
      ht).elim

/-! ### Registers written (R174) -/

theorem State.sameRegsBut_resultThenFlag (s : State) (x : Reg) (r f : Byte) :
    s.sameRegsBut [x, VF] (s.resultThenFlag x r f) := by
  intro q hq
  simp only [List.mem_cons, List.not_mem_nil, or_false, not_or] at hq
  rw [State.reg_resultThenFlag, if_neg (Ne.symm hq.2), if_neg (Ne.symm hq.1)]

theorem State.sameRegsBut_flagThenResult (s : State) (x : Reg) (f r : Byte) :
    s.sameRegsBut [x, VF] (s.flagThenResult x f r) := by
  intro q hq
  simp only [List.mem_cons, List.not_mem_nil, or_false, not_or] at hq
  rw [State.reg_flagThenResult, if_neg (Ne.symm hq.1), if_neg (Ne.symm hq.2)]

theorem State.sameRegsBut_drawBytes (s : State) (x y : Reg) (bs : List Byte) :
    s.sameRegsBut [VF] (s.drawBytes x y bs) := by
  intro q hq
  rw [State.reg_drawBytes, if_neg (Ne.symm (List.mem_singleton.not.1 hq))]

/-- `AddIndex` writes the sum to `I`, and its flag. -/
theorem exec_addIndex (s : State) (x : Reg) :
    exec (.addIndex x) s =
      .next ({ s with i := BitVec.ofNat 16 (s.i.toNat + (s.reg x).toNat) }.writeResult VF
        (indexOverflowFlag (s.i.toNat + (s.reg x).toNat))) := rfl

/-- Writing `I` changes no register. -/
theorem State.sameRegsBut_addIndex (s : State) (a : Word) (b : Byte) :
    s.sameRegsBut [VF] ({ s with i := a }.writeResult VF b) :=
  State.sameRegsBut_writeResult { s with i := a } VF b

/-- `WaitKey` changes at most `Vx`. -/
theorem State.sameRegsBut_latchKey (s : State) (x : Reg) : s.sameRegsBut [x] (s.latchKey x) := by
  by_cases hk : s.k = 0
  · rw [State.latchKey_none s x hk]
    exact fun r _ => rfl
  · obtain ⟨id, -, he⟩ := State.latchKey_some s x hk
    rw [he]
    exact s.sameRegsBut_writeResult x (BitVec.ofNat 8 id)

/-- A register above the block keeps its value. -/
theorem State.reg_setRegBlock_above (s : State) {x r : Reg} (h : x < r) :
    (s.setRegBlock (s.blockAt (x.val + 1))).advance.reg r = s.reg r := by
  have hlen : (s.blockAt (x.val + 1))[r.val]? = none := by
    rw [List.getElem?_eq_none]
    simp only [State.blockAt, List.length_map, List.length_range]
    exact h
  rw [State.reg_advance, State.reg_setRegBlock, hlen, Option.getD_none]

/-- The registers outside the table keep their values. -/
theorem exec_sameRegsBut {i : Instr} {s t : State} (h : exec i s = .next t)
    (ht : t.halted = false) : s.sameRegsBut (regsWritten i) t := by
  cases i
  case setImm x _ | addImm x _ | random x _ | copy x _ | or x _ | and x _ | xor x _ | getDelay x =>
    cases h
    exact s.sameRegsBut_writeResult x _
  case addReg x y =>
    cases h
    exact s.sameRegsBut_resultThenFlag x _ _
  case subXY x y | subYX x y | shR x y | shL x y =>
    cases h
    exact s.sameRegsBut_flagThenResult x _ _
  case waitKey x =>
    cases h
    exact s.sameRegsBut_latchKey x
  case addIndex x =>
    cases h
    exact s.sameRegsBut_addIndex _ _
  case drawSprite x y n =>
    obtain ⟨-, rfl⟩ := exec_drawSprite_running h ht
    exact s.sameRegsBut_drawBytes x y _
  case loadRegs x =>
    cases exec_loadRegs_running h ht
    intro r hr
    exact s.reg_setRegBlock_above (by simpa [regsWritten] using hr)
  all_goals
    exact fun r _ => State.reg_congr ((exec_next_running h ht).1 .v (by simp [fieldsWritten])) r

/-- Settles O25: the table of registers, and `I` is a field of three instructions alone. -/
theorem registersWrittenAreThoseOfTheTable : Obligations.RegistersWrittenAreThoseOfTheTable := by
  intro i s t h ht
  refine ⟨exec_sameRegsBut h ht, fun hset hadd hfont => ?_⟩
  refine (exec_next_running h ht).1 .i fun hmem => ?_
  rcases i_mem_fieldsWritten hmem with ⟨nnn, rfl⟩ | ⟨x, rfl⟩ | ⟨x, rfl⟩
  · exact hset nnn rfl
  · exact hadd x rfl
  · exact hfont x rfl

/-! ### Next `PC` (R133) -/

theorem State.latchKey_pc (s : State) (x : Reg) :
    (s.latchKey x).pc = if s.k = 0 then s.pc else s.pc + 2 := by
  by_cases hk : s.k = 0
  · rw [State.latchKey_none s x hk, if_pos hk]
  · obtain ⟨id, -, he⟩ := State.latchKey_some s x hk
    rw [he, if_neg hk, State.advance_pc, State.setReg_pc]

/-- Settles O26: the skips and `WaitKey` read their condition, `Return` the popped entry, and every
other instruction goes on or to its target. -/
theorem nextPcIsThatOfTheTable : Obligations.NextPcIsThatOfTheTable := by
  intro i s t h ht
  cases i
  case ret =>
    obtain ⟨-, hpc, -⟩ := exec_ret_running h ht
    rw [nextPc, hpc, Option.getD_some]
  case call nnn =>
    obtain ⟨-, hpc, -⟩ := exec_call_running h ht
    exact hpc
  case drawSprite x y n =>
    obtain ⟨-, rfl⟩ := exec_drawSprite_running h ht
    rfl
  case loadRegs x =>
    cases exec_loadRegs_running h ht
    rfl
  case storeRegs x => exact exec_storeRegs_running h ht
  case storeBCD x => exact exec_storeBCD_running h ht
  case waitKey x =>
    cases h
    exact s.latchKey_pc x
  case skipEqImm | skipNeqImm | skipEqReg | skipNeqReg | skipKeyDown =>
    cases h
    simp [nextPc, State.keyDown]
  case skipKeyUp x =>
    cases h
    cases hkey : s.k.getLsbD (keyId (s.reg x)) <;> simp [nextPc, State.keyDown, hkey]
  all_goals
    cases h
    rfl

/-! ### The invariant -/

/-- A fetch that fails latches a real fault, whose info says why (R129). -/
theorem State.fetchInstr_error_real {s : State} {f : FaultLatch} (h : s.fetchInstr = .error f) :
    f.real := by
  unfold State.fetchInstr at h
  rw [State.fetchWord_eq] at h
  split at h
  · next g hg =>
    split at hg <;> cases hg
    cases h
    exact latchOutOfBounds_real s.pc.isLt
  · next w _ =>
    split at h
    · cases h
    · next e he =>
      cases h
      obtain ⟨rfl, -⟩ := decode_eq_error_iff.1 he
      exact ⟨by simp [latchUnknownOpcode], he⟩

/-- A fault leaves the invariant: memory in canonical form, the latch legal, and nothing asked of a
halted machine. -/
theorem State.inv_raise (s : State) {f : FaultLatch} (hf : f.real) : (s.raise f).Inv where
  memory := Memory.wf_ofBytes _
  latch := hf.2
  running h := absurd (h.symm.trans (State.raise_halted hf)) (by decide)

/-- The address after an instruction fetched from memory is still in memory or the first beyond it.
-/
theorem toNat_add_small {pc : Word} (h : pc.toNat + 1 < 4096) :
    (pc + 2).toNat = pc.toNat + 2 ∧ (pc + 4).toNat = pc.toNat + 4 := by
  constructor <;> bv_omega

/-- The sum of a 12-bit and an 8-bit number fits 16 bits (R147). -/
theorem toNat_addrWord_add (a : Addr) (b : Byte) :
    (addrWord a + b.setWidth 16).toNat = a.toNat + b.toNat := by
  have ha := a.isLt
  have hb := b.isLt
  rw [BitVec.toNat_add, toNat_addrWord, BitVec.toNat_setWidth_of_le (by decide)]
  omega

/-- The next `PC` is in the range of R24, where the return addresses are in that of R140. -/
theorem nextPc_le {i : Instr} {s : State} (hpc : s.pc.toNat + 1 < 4096) (hs : s.pcInRange)
    (hret : i = .ret → 0 < s.sp.val) : (nextPc i s).toNat ≤ 0x10FE := by
  obtain ⟨h2, h4⟩ := toNat_add_small hpc
  obtain ⟨-, hstack⟩ := hs
  cases i
  case ret =>
    have hsp := hret rfl
    have hlt : s.sp.val - 1 < 16 := by omega
    have hentry := hstack (s.sp.val - 1) hlt (by omega)
    simp only [nextPc, Vector.getElem?_eq_getElem hlt, Option.getD_some]
    omega
  case jump nnn | call nnn =>
    have hn := nnn.isLt
    rw [nextPc, toNat_addrWord]
    omega
  case jumpV0 nnn =>
    have hn := nnn.isLt
    have hv := (s.reg 0).isLt
    rw [nextPc, toNat_addrWord_add]
    omega
  case skipEqImm | skipNeqImm | skipEqReg | skipNeqReg | skipKeyDown | skipKeyUp | waitKey =>
    rw [nextPc]
    split <;> omega
  all_goals
    rw [nextPc]
    omega

/-- The live return addresses stay in the range of R140: a push adds `PC + 2`, a pop adds none. -/
theorem stack_le {i : Instr} {s t : State} (h : exec i s = .next t) (ht : t.halted = false)
    (hpc : s.pc.toNat + 1 < 4096) (hs : s.pcInRange) (j : Nat) (hj : j < 16)
    (hlive : j < t.sp.val) : t.stack[j].toNat ≤ 0x1000 := by
  obtain ⟨h2, -⟩ := toNat_add_small hpc
  obtain ⟨-, hstack⟩ := hs
  obtain ⟨hsame, -⟩ := exec_next_running h ht
  by_cases hcall : ∃ nnn, i = .call nnn
  · obtain ⟨nnn, rfl⟩ := hcall
    obtain ⟨hsp, -, hentries⟩ := exec_call_running h ht
    rw [hentries j hj]
    split
    · omega
    · exact hstack j hj (by omega)
  · have hst : t.stack = s.stack := hsame .stack fun hmem => hcall (stack_mem_fieldsWritten hmem)
    have hsp : t.sp.val ≤ s.sp.val := by
      by_cases hret : i = .ret
      · subst hret
        obtain ⟨-, -, hsp⟩ := exec_ret_running h ht
        omega
      · have hsp : t.sp = s.sp :=
          hsame .sp fun hmem => (sp_mem_fieldsWritten hmem).elim hcall hret
        rw [hsp]
    simpa [hst] using hstack j hj (by omega)

/-- An instruction fetched from memory keeps the invariant, fault or not. -/
theorem exec_keeps_inv {i : Instr} {s t : State} (h : exec i s = .next t) (hs : s.Inv)
    (hrun : s.halted = false) (hpc : s.pc.toNat + 1 < 4096) : t.Inv := by
  rcases exec_cases i s with ⟨f, hreal, he⟩ | ⟨u, he, hsame, hwf⟩
  · cases he.symm.trans h
    exact s.inv_raise hreal
  · cases he.symm.trans h
    have hfault : t.fault = s.fault := hsame .fault (fault_not_mem_fieldsWritten i)
    refine ⟨hwf hs.memory, hfault ▸ hs.latch, fun ht => ⟨?_, stack_le h ht hpc (hs.running hrun)⟩⟩
    rw [nextPcIsThatOfTheTable i s t h ht]
    exact nextPc_le hpc (hs.running hrun) fun hi => (exec_ret_running (hi ▸ h) ht).1

/-- The invariant reads memory, the latch, `PC` and the stack alone. -/
theorem State.Inv.congr {s t : State} (hs : s.Inv) (hmem : t.mem = s.mem)
    (hfault : t.fault = s.fault) (hpc : t.pc = s.pc) (hsp : t.sp = s.sp) (hstack : t.stack = s.stack) :
    t.Inv where
  memory := hmem ▸ hs.memory
  latch := hfault ▸ hs.latch
  running h := by
    have hrun := hs.running (by simpa [State.halted, hfault] using h)
    simpa [State.pcInRange, hpc, hsp, hstack] using hrun

/-- Settles O21: a fault leaves the invariant by its form; an instruction that ends without one
moves `PC` by the table, and the stack only by a `Call` fetched from memory or a `Return`. -/
theorem everyStepKeepsTheInvariant : Obligations.EveryStepKeepsTheInvariant := by
  intro s t hs h
  rcases step_cases h with ⟨-, rfl⟩ | ⟨-, f, hf, rfl⟩ | ⟨hrun, i, u, hf, hexec, rfl⟩
  · exact hs.congr rfl rfl rfl rfl rfl
  · exact s.beginStep.inv_raise (State.fetchInstr_error_real hf)
  · have hbegin : s.beginStep.Inv := hs.congr rfl rfl rfl rfl rfl
    have hu : u.Inv := exec_keeps_inv hexec hbegin hrun (State.fetchInstr_ok hf).1
    exact hu.congr (by simp) (by simp) (by simp) (by simp) (by simp)

/-- Reset lists no cell and holds no return address. -/
theorem State.reset_inv : State.reset.Inv where
  memory := by decide
  latch := rfl
  running _ := ⟨by decide, fun j _ hj => absurd hj (Nat.not_lt_zero j)⟩

/-- What a load answers is the launched state (R290). -/
theorem State.load_ok {l : Launch} {s : State} (h : State.load l = .ok s) : s = l.state := by
  unfold State.load at h
  split at h <;> cases h
  rfl

/-- Settles O20: a load differs from reset in memory, which is written out in canonical form, and in
nothing else that the invariant reads. -/
theorem invariantHoldsAfterReset : Obligations.InvariantHoldsAfterReset := by
  refine ⟨State.reset_inv, fun l s hl => ?_⟩
  rw [State.load_ok hl]
  exact ⟨Memory.wf_ofBytes _, State.reset_inv.latch, fun _ => State.reset_inv.running rfl⟩

end Sys2Proof.Machine
end

section
/-!
The step cycle (spec/40_step_cycle.md): a step always answers, runs what it fetched, latches the
fault of a fetch, and reads `RUNSTATE` nowhere.
-/

namespace Sys2Proof.Machine

/-- Every instruction answers a next state, by taking a fault if need be (R256). -/
theorem exec_answers (i : Instr) (s : State) : ∃ t, exec i s = .next t := by
  rcases exec_cases i s with ⟨f, -, he⟩ | ⟨t, he, -⟩
  · exact ⟨_, he⟩
  · exact ⟨t, he⟩

/-- Settles O11: a halted machine answers itself, a fetch that fails is taken as a fault, and every
instruction answers. -/
theorem everyStepAnswersANextState : Obligations.EveryStepAnswersANextState := by
  refine ⟨exec_answers, fun s => ?_⟩
  cases hh : s.halted with
  | true => exact ⟨_, step_of_halted hh⟩
  | false =>
    rcases hf : s.fetchInstr with f | i
    · exact ⟨_, step_of_fetch_error hh hf⟩
    · obtain ⟨t, he⟩ := exec_answers i s.beginStep
      exact ⟨_, step_of_fetch_ok hh hf he⟩

/-! ### Fetch -/

theorem State.fetchWord_ok {s : State} (h : s.pc.toNat + 1 < 4096) :
    s.fetchWord = .ok (wordOfBytes (s.mem.peek s.pc.toNat) (s.mem.peek (s.pc.toNat + 1))) := by
  rw [State.fetchWord_eq, if_pos h]

/-- The latch of the first address out of range, from a word that holds the first address (R64). -/
theorem latchOutOfBounds_max (a : Word) :
    latchOutOfBounds (max a.toNat 4096) =
      { code := .outOfBounds, info := if 4096 ≤ a.toNat then a else 4096 } := by
  rw [latchOutOfBounds]
  split
  · next h => rw [max_eq_left h, BitVec.ofNat_toNat, BitVec.setWidth_eq]
  · next h => rw [max_eq_right (by omega)]; rfl

theorem State.fetchWord_error {s : State} (h : 4095 ≤ s.pc.toNat) :
    s.fetchWord =
      .error { code := .outOfBounds, info := if 4096 ≤ s.pc.toNat then s.pc else 4096 } := by
  rw [State.fetchWord_eq, if_neg (by omega), latchOutOfBounds_max]

/-- A fetch that fails is not decoded (R129). -/
theorem State.fetchInstr_of_fetchWord_error {s : State} {f : FaultLatch}
    (h : s.fetchWord = .error f) : s.fetchInstr = .error f := by
  rw [State.fetchInstr, h]

/-- A fetched word is decoded, or reported (R124). -/
theorem State.fetchInstr_of_decode {s : State} {w : Word} {i : Instr} (h : s.fetchWord = .ok w)
    (hd : decode w = .ok i) : s.fetchInstr = .ok i := by
  simp only [State.fetchInstr, h, hd]

theorem State.fetchInstr_of_decode_error {s : State} {w : Word} {e : DecodeError}
    (h : s.fetchWord = .ok w) (hd : decode w = .error e) :
    s.fetchInstr = .error (latchUnknownOpcode w) := by
  simp only [State.fetchInstr, h, hd]

/-- A step whose fetch fails latches that fault. -/
theorem step_latches {s : State} {f : FaultLatch} (hrun : s.halted = false)
    (hf : s.fetchInstr = .error f) : ∃ t, step s = .next t ∧ t.fault = f :=
  ⟨_, step_of_fetch_error hrun hf, State.raise_fault _ f⟩

/-- Settles O7: the bytes at `PC` are what `fetchInstr` decodes, and each part of a step has its
frame. -/
theorem stepRunsTheDecodedInstruction : Obligations.StepRunsTheDecodedInstruction := by
  intro s i hrun hpc hdecode
  have hfetch := State.fetchInstr_of_decode (State.fetchWord_ok hpc) hdecode
  obtain ⟨t, he⟩ := exec_answers i s.beginStep
  refine ⟨⟨t, he, step_of_fetch_ok hrun hfetch he⟩,
    ⟨rfl, rfl, rfl, rfl, rfl, s.sameBut_beginStep⟩, ⟨fun x rest h => ?_, fun h => ?_⟩,
    fun t _ => t.sameBut_endStep i, fun t ht => State.endStep_of_halted ht⟩
  · simp only [State.nextInput, h]
  · simp only [State.nextInput, h, and_self]

/-- Settles O8: the wide read at `PC`, and the first of its addresses out of range. -/
theorem fetchReadsTheWordAtPc : Obligations.FetchReadsTheWordAtPc := by
  intro s
  refine ⟨fun h => ⟨_, State.fetchWord_ok (by omega), wordOfBytes_toNat _ _⟩, fun h => ?_,
    fun h => ?_⟩
  · have hf := State.fetchWord_error (s := s) (by omega)
    rw [if_neg (by omega)] at hf
    exact ⟨hf, fun hrun => step_latches hrun (State.fetchInstr_of_fetchWord_error hf)⟩
  · have hf := State.fetchWord_error (s := s) (by omega)
    rw [if_pos h] at hf
    exact ⟨hf, fun hrun => step_latches hrun (State.fetchInstr_of_fetchWord_error hf)⟩

/-- Settles O9: a word that selects no row decodes to nothing, and the step latches it. -/
theorem unknownWordLatchesItself : Obligations.UnknownWordLatchesItself := by
  refine ⟨fun s w hrun hf hnone => ?_, ?_⟩
  · obtain ⟨t, ht, hfault⟩ := step_latches hrun
      (State.fetchInstr_of_decode_error hf (decode_eq_error_iff.2 ⟨rfl, hnone⟩))
    refine ⟨t, ht, hfault, ?_, ?_⟩
    · rw [State.faultCode, hfault]; rfl
    · rw [State.faultInfo, hfault]; rfl
  · have h0 : decode 0 = .error (.unknownOpcode 0) := by decide
    exact (decode_eq_error_iff.1 h0).2

/-! ### A halted machine -/

/-- A run begins with a step. -/
theorem run_succ {s t : State} (h : step s = .next t) (n : Nat) :
    core.run (n + 1) s = core.run n t := by
  have hcore : core.step s = .next t := h
  simp only [Host.Core.run, hcore]

/-- One step lowers the strobe of a halted machine, and no more steps change anything. -/
theorem run_succ_of_halted (n : Nat) {s : State} (h : s.halted = true) :
    core.run (n + 1) s = .next { s with strobe := false } := by
  rw [run_succ (step_of_halted h)]
  induction n with
  | zero => rfl
  | succ n ih => rw [run_succ (step_of_halted (s := { s with strobe := false }) h), ih]

theorem State.sameBut_lowerStrobe (s : State) : s.sameBut [.strobe] { s with strobe := false } := by
  intro f hf
  cases f <;> simp_all [Field.same]

/-- Settles O10: the strobe is all that a step of a halted machine changes, and a load leaves the
latch of reset. -/
theorem haltedMachineStaysHalted : Obligations.HaltedMachineStaysHalted := by
  refine ⟨fun s n h => ?_, fun l s hl => ?_⟩
  · cases n with
    | zero => exact ⟨s, rfl, fun f _ => by cases f <;> simp [Field.same], h, fun h0 => by omega⟩
    | succ n => exact ⟨_, run_succ_of_halted n h, s.sameBut_lowerStrobe, h, fun _ => rfl⟩
  · rw [State.load_ok hl, Launch.state_halted]

/-! ### `RUNSTATE` -/

/-- The same state with another `RUNSTATE`. -/
def State.withRunState (s : State) (r : RunState) : State := { s with runState := r }

/-- The instruction takes the same real fault with another `RUNSTATE`, or leaves the same state but
for it. -/
def RunStateFree (i : Instr) (s : State) (r : RunState) : Prop :=
  (∃ f : FaultLatch, f.real ∧ exec i s = .next (s.raise f) ∧
    exec i (s.withRunState r) = .next ((s.withRunState r).raise f)) ∨
  ∃ t, exec i s = .next t ∧ exec i (s.withRunState r) = .next (t.withRunState r)

theorem State.push_withRunState (s : State) (a : Word) (r : RunState) :
    (s.withRunState r).push a = (s.push a).map fun t => t.withRunState r := by
  by_cases h : s.sp.val < 16 <;>
    simp only [State.push, State.withRunState, h, ↓reduceDIte] <;> rfl

theorem State.pop_withRunState (s : State) (r : RunState) :
    (s.withRunState r).pop = s.pop.map fun p => (p.1, p.2.withRunState r) := by
  by_cases h : 0 < s.sp.val <;>
    simp only [State.pop, State.withRunState, h, ↓reduceDIte] <;> rfl

theorem State.storeBlock_withRunState (s : State) (bs : List Byte) (r : RunState) :
    (s.withRunState r).storeBlock bs = (s.storeBlock bs).map fun t => t.withRunState r := by
  simp only [State.storeBlock, State.withRunState]
  split <;> simp_all [Except.map]

theorem State.latchKey_withRunState (s : State) (x : Reg) (r : RunState) :
    (s.withRunState r).latchKey x = (s.latchKey x).withRunState r := by
  simp only [State.latchKey, State.withRunState]
  split <;> rfl

/-- A store of a block, then `PC + 2`, does not read `RUNSTATE`. -/
theorem runStateFree_of_store {i : Instr} {s : State} {bs : List Byte} (r : RunState)
    (hne : bs ≠ []) (hexec : exec i s = s.settle ((s.storeBlock bs).map State.advance))
    (hexec' : exec i (s.withRunState r) =
      (s.withRunState r).settle (((s.withRunState r).storeBlock bs).map State.advance)) :
    RunStateFree i s r := by
  rw [RunStateFree, hexec, hexec']
  rcases Nat.lt_or_ge 4096 (s.i.toNat + bs.length) with hout | hin
  · exact .inl ⟨_, latchOutOfBounds_real s.i.isLt, s.storeThenAdvance_fault bs hne hout,
      (s.withRunState r).storeThenAdvance_fault bs hne hout⟩
  · obtain ⟨t, ht, -⟩ := s.storeBlock_ok bs (.inr hin)
    refine .inr ⟨t.advance, by rw [ht]; rfl, ?_⟩
    rw [State.storeBlock_withRunState, ht]
    rfl

/-- No instruction reads `RUNSTATE`. -/
theorem runStateFree (i : Instr) (s : State) (r : RunState) : RunStateFree i s r := by
  cases i
  case ret =>
    rcases s.pop_eq with ⟨hpos, t, ht, -⟩ | ⟨h0, -⟩
    · refine .inr ⟨t.jumpTo _, by rw [exec, execReturn, ht]; rfl, ?_⟩
      rw [exec, execReturn, State.pop_withRunState, ht]
      rfl
    · exact .inl ⟨_, latchStackUnderflow_real, execReturn_fault s h0,
        execReturn_fault (s.withRunState r) h0⟩
  case call nnn =>
    rcases s.push_eq (s.pc + 2) with ⟨-, t, ht, -⟩ | ⟨h16, -⟩
    · refine .inr ⟨t.jumpTo (addrWord nnn), by rw [exec, execCall, ht]; rfl, ?_⟩
      rw [exec, execCall, State.push_withRunState]
      exact congrArg _ (congrArg (Except.map _) (congrArg (Except.map _) ht))
    · exact .inl ⟨_, latchStackOverflow_real, execCall_fault s nnn h16,
        execCall_fault (s.withRunState r) nnn h16⟩
  case drawSprite x y n =>
    rw [RunStateFree, exec, exec, execDrawSprite_eq, execDrawSprite_eq]
    by_cases hin : n.toNat = 0 ∨ s.i.toNat + n.toNat ≤ 4096
    · exact .inr ⟨_, if_pos hin, if_pos hin⟩
    · exact .inl ⟨_, latchOutOfBounds_real s.i.isLt, if_neg hin, if_neg hin⟩
  case loadRegs x =>
    rw [RunStateFree, exec, exec, execLoadRegs_eq, execLoadRegs_eq]
    by_cases hin : s.i.toNat + x.val < 4096
    · exact .inr ⟨_, if_pos hin, if_pos hin⟩
    · exact .inl ⟨_, latchOutOfBounds_real s.i.isLt, if_neg hin, if_neg hin⟩
  case storeRegs x => exact runStateFree_of_store r (s.regBlock_ne_nil x) rfl rfl
  case storeBCD x => exact runStateFree_of_store r (by simp [bcdDigits]) rfl rfl
  case waitKey x => exact .inr ⟨s.latchKey x, rfl, congrArg _ (s.latchKey_withRunState x r)⟩
  all_goals exact .inr ⟨_, rfl, rfl⟩

/-- The end of a step that did not fault writes `RUNSTATE` whatever it was. -/
theorem State.endStep_withRunState {s : State} (i : Instr) (r : RunState) (h : s.halted = false) :
    (s.withRunState r).endStep i = s.endStep i := by
  have h' : (s.withRunState r).halted = false := h
  rw [State.endStep, State.endStep, h, h']
  rfl

/-- Settles O15: the instruction fetched is the same, it does not read `RUNSTATE`, and where it does
not fault the end of the step writes it. -/
theorem runStateInfluencesNoStep : Obligations.RunStateInfluencesNoStep := by
  intro s t r h
  rcases step_cases h with ⟨hh, rfl⟩ | ⟨hh, f, hf, rfl⟩ | ⟨hh, i, u, hf, hexec, rfl⟩
  · exact ⟨_, step_of_halted (s := s.withRunState r) hh, rfl, rfl,
      fun ht => absurd (hh.symm.trans ht) (by decide), fun _ => rfl⟩
  · have hreal := State.raise_halted (s := s.beginStep) (State.fetchInstr_error_real hf)
    exact ⟨_, step_of_fetch_error (s := s.withRunState r) hh hf, rfl, rfl,
      fun ht => absurd (hreal.symm.trans ht) (by decide), fun hs => absurd (hh.symm.trans hs)
      (by decide)⟩
  · have hnot : ¬ s.halted = true := by simp [hh]
    rcases runStateFree i s.beginStep r with ⟨f, hreal, he, he'⟩ | ⟨v, he, he'⟩
    · cases he.symm.trans hexec
      exact ⟨_, step_of_fetch_ok (s := s.withRunState r) hh hf he', by simp, by simp,
        fun ht => by simp [State.raise_halted hreal] at ht, fun hs => (hnot hs).elim⟩
    · cases he.symm.trans hexec
      refine ⟨_, step_of_fetch_ok (s := s.withRunState r) hh hf he', ?_, ?_, fun ht => ?_,
        fun hs => (hnot hs).elim⟩
      · simp [State.withRunState]
      · simp [State.withRunState]
      · exact State.endStep_withRunState i r (by simpa using ht)

end Sys2Proof.Machine
end

section
/-!
The outputs and the load image (spec/10_state.md sections 5 and 6, spec/70_reset_and_hazards.md).
-/

namespace Sys2Proof.Machine

/-- The entries of rows of one length laid one after another. -/
theorem getElem?_flatMap_rows {α : Type} {n : Nat} (rows : List (Vector α n)) (r c : Nat)
    (hc : c < n) :
    (rows.flatMap fun row => row.toList)[r * n + c]? = (rows[r]?).bind fun row => row[c]? := by
  induction rows generalizing r with
  | nil => simp
  | cons row rows ih =>
    rw [List.flatMap_cons]
    cases r with
    | zero =>
      rw [List.getElem?_append_left (by simpa using hc)]
      simp
    | succ r =>
      have hge : n ≤ (r + 1) * n + c := by rw [Nat.succ_mul]; omega
      have hidx : (r + 1) * n + c - n = r * n + c := by rw [Nat.succ_mul]; omega
      rw [List.getElem?_append_right (by simpa using hge), Vector.length_toList, hidx, ih r]
      simp

/-- Settles O17: the rows have 64 pixels each, and lie one after another. -/
theorem frameIsRowMajor : Obligations.FrameIsRowMajor := by
  intro s
  refine ⟨by simp [State.frame, List.length_flatMap], fun r c hr hc => ?_⟩
  rw [State.frame, getElem?_flatMap_rows _ r c hc]
  simp [Screen.pixel, hr, hc]

/-- An address above the font reads 0 where no cell is listed (R68). -/
theorem unlistedByte_of_ge {a : Nat} (h : 0x50 ≤ a) : unlistedByte a = 0 := by
  have hnone : defaultFont[a]? = none := by
    rw [List.getElem?_eq_none]
    exact h
  rw [unlistedByte, hnone, Option.getD_none]

/-- Settles O18: the fields of `State.reset`, entry by entry. -/
theorem resetLeavesTheNamedValues : Obligations.ResetLeavesTheNamedValues := by
  refine ⟨fun r => ?_, rfl, rfl, rfl, rfl, rfl, rfl, rfl, rfl, rfl, rfl, fun j hj => ?_,
    fun r c => Screen.pixel_blank r c, fun a ha _ => unlistedByte_of_ge ha⟩
  · simp [State.reg, State.reset]
  · simp [State.reset, hj]

/-- What a launched machine's memory reads as (R291). -/
theorem Launch.state_peek (l : Launch) {a : Nat} (h : a < 4096) :
    l.state.mem.peek a = l.imageByte a := by
  rw [Launch.state_mem, Memory.peek_ofBytes _ h]

theorem Launch.imageByte_font (l : Launch) {a : Nat} (h : a < 0x50) :
    l.font.toList[a]? = some (l.imageByte a) := by
  simp [Launch.imageByte, h]

theorem Launch.imageByte_gap (l : Launch) {a : Nat} (h : 0x50 ≤ a) (h' : a < 0x200) :
    l.imageByte a = 0 := by
  rw [Launch.imageByte, if_neg (by omega), if_pos h']

theorem Launch.imageByte_program (l : Launch) {k : Nat} (h : k < l.program.length) :
    l.program[k]? = some (l.imageByte (0x200 + k)) := by
  rw [Launch.imageByte, if_neg (by omega), if_neg (by omega), if_pos (by omega),
    Nat.add_sub_cancel_left, List.getElem?_eq_getElem h, Option.getD_some]

theorem Launch.imageByte_tail (l : Launch) (k : Nat) :
    l.imageByte (0x200 + l.program.length + k) = (l.tail[k]?).getD 0 := by
  rw [Launch.imageByte, if_neg (by omega), if_neg (by omega), if_neg (by omega),
    Nat.add_sub_cancel_left]

/-- Settles O19: memory reads as the image, the other fields are those of reset and of the launch,
and a program beyond 3584 bytes is refused. -/
theorem loadImageIsTheLaunchedProgram : Obligations.LoadImageIsTheLaunchedProgram := by
  intro l
  refine ⟨fun h => ⟨l.state, by simp [State.load, programFits, h], fun a ha => ?_,
    fun a ha ha' => ?_, fun k hk => ?_, fun k hk => ?_, l.state_sameBut, rfl, rfl⟩, fun h => ?_⟩
  · rw [l.state_peek (by omega), l.imageByte_font ha]
  · rw [l.state_peek (by omega), l.imageByte_gap ha ha']
  · rw [l.state_peek (by omega), l.imageByte_program hk]
  · rw [l.state_peek hk, l.imageByte_tail]
  · simp [State.load, programFits, h]

end Sys2Proof.Machine
end

section
/-!
Control transfer (spec/41_control_flow.md): `Return`, `Call`, the jumps and `SkipNeqReg`.
-/

namespace Sys2Proof.Machine

/-- Settles O27: the word selects its row, and the pop leaves the entry in place. -/
theorem returnPopsIntoPc : Obligations.ReturnPopsIntoPc := by
  refine ⟨rowDecodes_at 1 rfl, fun s h => ?_⟩
  obtain ⟨t, hexec, hpc, hsp, -, hsame⟩ := execReturn_ok s h
  exact ⟨t, hexec, hpc, hsp, State.sameBut_mono hsame (by simp)⟩

/-- Settles O28: the word selects its row, and the push writes the entry at the old depth alone. -/
theorem callPushesTheReturnAddress : Obligations.CallPushesTheReturnAddress := by
  refine ⟨rowDecodes_at 3 rfl, fun s nnn h => ?_⟩
  obtain ⟨t, hexec, hsp, hpc, hstack, -, hsame⟩ := execCall_ok s nnn h
  refine ⟨t, hexec, ?_, fun j hj => ?_, hsp, by rw [hpc, toNat_addrWord],
    State.sameBut_mono hsame (by simp)⟩
  · rw [Vector.getElem?_eq_getElem h, hstack _ h, if_pos rfl]
  · by_cases hlt : j < 16
    · rw [Vector.getElem?_eq_getElem hlt, Vector.getElem?_eq_getElem hlt, hstack j hlt, if_neg hj]
    · rw [Vector.getElem?_eq_none (by omega), Vector.getElem?_eq_none (by omega)]

/-- A state with the same latch is halted iff the other is. -/
theorem State.halted_congr {s t : State} (h : t.fault = s.fault) : t.halted = s.halted := by
  rw [State.halted, State.halted, h]

/-- Settles O29: at its limit each instruction takes its fault, elsewhere it leaves the latch alone.
-/
theorem stackLimitsFault : Obligations.StackLimitsFault := by
  intro s nnn hrun
  refine ⟨fun h => ⟨_, execCall_fault s nnn h, rfl, rfl⟩, fun h => ?_,
    fun h => ⟨_, execReturn_fault s h, rfl, rfl⟩, fun h => ?_⟩
  · obtain ⟨t, hexec, -, -, -, -, hsame⟩ := execCall_ok s nnn h
    exact ⟨t, hexec, (State.halted_congr (hsame .fault (by simp))).trans hrun⟩
  · obtain ⟨t, hexec, -, -, -, hsame⟩ := execReturn_ok s h
    exact ⟨t, hexec, (State.halted_congr (hsame .fault (by simp))).trans hrun⟩

/-- Settles O30: the entry below the depth a `Call` left is the address it pushed. -/
theorem callThenReturnResumesAfterTheCall : Obligations.CallThenReturnResumesAfterTheCall := by
  intro s t u nnn h hcall husp hustack
  obtain ⟨t', hexec, hsp, -, hstack, -⟩ := execCall_ok s nnn h
  cases hexec.symm.trans hcall
  have hdepth : u.sp.val = s.sp.val + 1 := husp ▸ hsp
  obtain ⟨v, hret, hpc, hvsp, -, hsame⟩ := execReturn_ok u (by omega)
  have hentry : u.stack[s.sp.val]? = some (s.pc + 2) := by
    rw [hustack, Vector.getElem?_eq_getElem h, hstack _ h, if_pos rfl]
  rw [hdepth, Nat.add_sub_cancel] at hpc hvsp
  exact ⟨v, hret, Option.some.inj (hpc.symm.trans hentry), Fin.ext hvsp, hsame .fault (by simp)⟩

/-- A jump writes `PC` and nothing else (R125). -/
theorem State.sameBut_jumpTo (s : State) (a : Word) : s.sameBut [.pc] (s.jumpTo a) := by
  intro f hf
  cases f <;> simp_all [Field.same]

/-- A jump to the address it stands at changes nothing. -/
theorem State.jumpTo_self (s : State) : s.jumpTo s.pc = s := rfl

/-- Settles O31: the word selects its row, and the target is the address field. -/
theorem jumpGoesToTheTarget : Obligations.JumpGoesToTheTarget := by
  refine ⟨rowDecodes_at 2 rfl, fun s nnn =>
    ⟨s.jumpTo (addrWord nnn), rfl, toNat_addrWord nnn, s.sameBut_jumpTo _, ?_, fun h => ?_⟩⟩
  · rintro rfl
    exact State.fetchWord_error (s := s.jumpTo (addrWord 0xFFF)) (by rw [State.jumpTo_pc]; decide)
  · have hself : addrWord nnn = s.pc := BitVec.eq_of_toNat_eq ((toNat_addrWord nnn).trans h.symm)
    rw [hself, State.jumpTo_self]
    exact fun f _ => by cases f <;> simp [Field.same]

/-- Settles O32: the word selects its row, and the sum of its field and `V0` fits 16 bits. -/
theorem jumpV0AddsTheRegister : Obligations.JumpV0AddsTheRegister :=
  ⟨rowDecodes_at 20 rfl, fun s nnn =>
    ⟨s.jumpTo (addrWord nnn + (s.reg 0).setWidth 16), rfl, toNat_addrWord_add nnn (s.reg 0),
      s.sameBut_jumpTo _⟩⟩

/-- `SkipNeqReg` skips on `Vx ≠ Vy`, whatever its digit. -/
theorem exec_skipNeqReg (s : State) (x y : Reg) (n : Nibble) :
    exec (.skipNeqReg x y n) s = .next (s.skipIf (s.reg x != s.reg y)) := rfl

/-- Settles O35: the word selects its row, the instruction ends in a skip that does not read the
digit, and `Vx ≠ Vy` fails where `x = y`. -/
theorem skipNeqRegIgnoresItsLowDigit : Obligations.SkipNeqRegIgnoresItsLowDigit := by
  refine ⟨rowDecodes_at 18 rfl, fun s x y n => ⟨?_, rfl⟩⟩
  obtain ⟨t, hexec, hpc, hsame⟩ := completes_of_skipIf (exec_skipNeqReg s x y n) bne_iff_ne
  refine ⟨t, hexec, hpc, ?_, hsame⟩
  rintro rfl
  rwa [if_neg (not_not_intro rfl)] at hpc

end Sys2Proof.Machine
end

section
/-!
The register ALU (spec/42_register_alu.md): logic, the three shapes of a result with a flag, the
shifts and `Random`.
-/

namespace Sys2Proof.Machine

/-- Settles O38: each instruction ends in a write of its result, taken bit by bit. -/
theorem copyAndLogicWriteVxAlone : Obligations.CopyAndLogicWriteVxAlone :=
  fun s x y =>
    ⟨completes_of_writeResult (p := (· = s.reg y)) rfl rfl,
      completes_of_writeResult (b := s.reg x ||| s.reg y)
        (p := fun b => ∀ j, b.getLsbD j = ((s.reg x).getLsbD j || (s.reg y).getLsbD j)) rfl
        fun _ => BitVec.getLsbD_or,
      completes_of_writeResult (b := s.reg x &&& s.reg y)
        (p := fun b => ∀ j, b.getLsbD j = ((s.reg x).getLsbD j && (s.reg y).getLsbD j)) rfl
        fun _ => BitVec.getLsbD_and,
      completes_of_writeResult (b := s.reg x ^^^ s.reg y)
        (p := fun b => ∀ j, b.getLsbD j = ((s.reg x).getLsbD j ^^ (s.reg y).getLsbD j)) rfl
        fun _ => BitVec.getLsbD_xor⟩

/-- `Random` writes the masked byte of the step. -/
theorem exec_random (s : State) (x : Reg) (kk : Byte) :
    exec (.random x kk) s = .next (s.writeResult x (s.rnd &&& kk)) := rfl

/-- Settles O42: the word selects its row, and the instruction ends in a write of `RND & kk`. -/
theorem randomMasksTheDrawnByte : Obligations.RandomMasksTheDrawnByte := by
  refine ⟨rowDecodes_at 21 rfl, fun s x kk => ?_⟩
  obtain ⟨t, hexec, hx, hregs, hpc, hsame⟩ :=
    completes_of_writeResult (p := (· = s.rnd &&& kk)) (exec_random s x kk) rfl
  refine ⟨t, hexec, fun j => ?_, fun hkk => ?_, hregs, hpc, hsame⟩
  · rw [hx, BitVec.getLsbD_and]
  · rw [hx, hkk]
    exact BitVec.and_zero

/-! ### A result with a flag -/

theorem State.sameBut_resultThenFlag (s : State) (x : Reg) (r f : Byte) :
    s.sameBut [.v, .pc] (s.resultThenFlag x r f) := by
  intro g hg
  cases g <;> simp_all [Field.same]

theorem State.sameBut_flagThenResult (s : State) (x : Reg) (f r : Byte) :
    s.sameBut [.v, .pc] (s.flagThenResult x f r) := by
  intro g hg
  cases g <;> simp_all [Field.same]

/-- An instruction that writes a result and then a flag: at `x = F` the flag stands (R167). -/
theorem completes_of_resultThenFlag {i : Instr} {s : State} {x : Reg} {r f : Byte}
    {p q : Byte → Prop} (hexec : exec i s = .next (s.resultThenFlag x r f)) (hp : p r) (hq : q f) :
    Completes i s fun t => q (t.reg VF) ∧ (x ≠ VF → p (t.reg x)) ∧ s.sameRegsBut [x, VF] t ∧
      t.pc = s.pc + 2 ∧ s.sameBut [.v, .pc] t := by
  refine ⟨_, hexec, ?_, fun hx => ?_, s.sameRegsBut_resultThenFlag x r f, rfl,
    s.sameBut_resultThenFlag x r f⟩
  · rwa [State.reg_resultThenFlag, if_pos rfl]
  · rwa [State.reg_resultThenFlag, if_neg (Ne.symm hx), if_pos rfl]

/-- An instruction that writes a flag and then a result: at `x = F` the result stands (R168 to
R171). -/
theorem completes_of_flagThenResult {i : Instr} {s : State} {x : Reg} {f r : Byte}
    {p q : Byte → Prop} (hexec : exec i s = .next (s.flagThenResult x f r)) (hp : p r) (hq : q f) :
    Completes i s fun t => p (t.reg x) ∧ (x ≠ VF → q (t.reg VF)) ∧ s.sameRegsBut [x, VF] t ∧
      t.pc = s.pc + 2 ∧ s.sameBut [.v, .pc] t := by
  refine ⟨_, hexec, ?_, fun hx => ?_, s.sameRegsBut_flagThenResult x f r, rfl,
    s.sameBut_flagThenResult x f r⟩
  · rwa [State.reg_flagThenResult, if_pos rfl]
  · rwa [State.reg_flagThenResult, if_neg hx, if_pos rfl]

/-- A flag is 1 where its condition holds, else 0 (R23). -/
theorem flagByte_decide (c : Prop) [Decidable c] : flagByte (decide c) = if c then 1 else 0 := by
  simp [flagByte]

/-- `AddReg` writes the exact sum, narrowed, and then the carry. -/
theorem exec_addReg (s : State) (x y : Reg) :
    exec (.addReg x y) s =
      .next (s.resultThenFlag x (narrow ((s.reg x).toNat + (s.reg y).toNat : Nat))
        (carryFlag (s.reg x) (s.reg y))) := rfl

/-- Settles O39: the instruction ends in a write of the narrowed sum and then of the carry. -/
theorem addRegSetsTheCarry : Obligations.AddRegSetsTheCarry :=
  fun s x y => completes_of_resultThenFlag
    (p := fun b => b.toNat = ((s.reg x).toNat + (s.reg y).toNat) % 256)
    (q := (· = if (s.reg x).toNat + (s.reg y).toNat > 255 then 1 else 0))
    (exec_addReg s x y) (toNat_narrow _) (flagByte_decide _)

/-- A difference of bytes, narrowed, wraps (R173). -/
theorem toNat_narrow_sub (a b : Byte) :
    (narrow ((a.toNat : Int) - (b.toNat : Int))).toNat = (a.toNat + 256 - b.toNat) % 256 := by
  have ha := a.isLt
  have hb := b.isLt
  rw [narrow, BitVec.toNat_ofInt]
  omega

/-- An instruction that subtracts `b` from `a` into `Vx`, flag first. -/
theorem completes_of_subtraction {i : Instr} {s : State} {x : Reg} {a b : Byte}
    (hexec : exec i s =
      .next (s.flagThenResult x (notBorrowFlag a b) (narrow ((a.toNat : Int) - (b.toNat : Int))))) :
    Completes i s fun t => (t.reg x).toNat = (a.toNat + 256 - b.toNat) % 256 ∧
      (x ≠ VF → t.reg VF = if a.toNat ≥ b.toNat then 1 else 0) ∧ s.sameRegsBut [x, VF] t ∧
      t.pc = s.pc + 2 ∧ s.sameBut [.v, .pc] t :=
  completes_of_flagThenResult (p := fun r => r.toNat = (a.toNat + 256 - b.toNat) % 256)
    (q := (· = if a.toNat ≥ b.toNat then 1 else 0)) hexec (toNat_narrow_sub a b) (flagByte_decide _)

/-- Settles O40: both instructions are one subtraction, with the operands in either order. -/
theorem subtractionsWrapAndSetNotBorrow : Obligations.SubtractionsWrapAndSetNotBorrow :=
  fun _ _ _ => ⟨completes_of_subtraction rfl, completes_of_subtraction rfl⟩

/-- The bit a shift to the right moves out. -/
theorem toNat_shiftOutLowFlag (b : Byte) : (shiftOutLowFlag b).toNat = b.toNat % 2 := by
  rw [shiftOutLowFlag, BitVec.toNat_and]
  exact Nat.and_one_is_mod _

/-- The bit a shift to the left moves out. -/
theorem toNat_shiftOutHighFlag (b : Byte) : (shiftOutHighFlag b).toNat = b.toNat / 128 := by
  rw [shiftOutHighFlag, BitVec.toNat_ushiftRight, Nat.shiftRight_eq_div_pow]

/-- `SHIFT_SRC` names the source (R169, R171). -/
theorem State.shiftSource_eq {s : State} {x y : Reg} {src : Byte}
    (hx : s.params.shiftSrc = .x → src = s.reg x) (hy : s.params.shiftSrc = .y → src = s.reg y) :
    s.shiftSource x y = src := by
  unfold State.shiftSource
  split
  · next h => exact (hx h).symm
  · next h => exact (hy h).symm

/-- Settles O41: both instructions write the bit moved out and then the shifted source. -/
theorem shiftsMoveOneBitIntoVf : Obligations.ShiftsMoveOneBitIntoVf := by
  intro s x y src hx hy
  obtain rfl := State.shiftSource_eq hx hy
  refine ⟨completes_of_flagThenResult (f := shiftOutLowFlag (s.shiftSource x y))
      (r := s.shiftSource x y >>> 1) (p := fun r => r.toNat = (s.shiftSource x y).toNat / 2)
      (q := fun f => f.toNat = (s.shiftSource x y).toNat % 2) rfl ?_ (toNat_shiftOutLowFlag _),
    completes_of_flagThenResult (f := shiftOutHighFlag (s.shiftSource x y))
      (r := s.shiftSource x y <<< 1) (p := fun r => r.toNat = (s.shiftSource x y).toNat * 2 % 256)
      (q := fun f => f.toNat = (s.shiftSource x y).toNat / 128) rfl ?_ (toNat_shiftOutHighFlag _)⟩
  · rw [BitVec.toNat_ushiftRight, Nat.shiftRight_eq_div_pow]
  · rw [BitVec.toNat_shiftLeft, Nat.shiftLeft_eq]

end Sys2Proof.Machine
end

section
/-!
The index register and block transfers (spec/43_index_memory.md, spec/20_memory.md section 5).
-/

namespace Sys2Proof.Machine

/-- Writing `I` and a register changes `I`, the registers and `PC` alone. -/
theorem State.sameBut_setIThenWrite (s : State) (a : Word) (x : Reg) (b : Byte) :
    s.sameBut [.i, .v, .pc] ({ s with i := a }.writeResult x b) := by
  intro f hf
  cases f <;> simp_all [Field.same]

/-- `FontAddr` writes five times the whole register to `I`. -/
theorem exec_fontAddr (s : State) (x : Reg) :
    exec (.fontAddr x) s = .next { s with i := BitVec.ofNat 16 ((s.reg x).toNat * 5) }.advance :=
  rfl

/-- Settles O44: the exact sum is kept modulo 2^16, and five times a byte fits 16 bits. -/
theorem addIndexAndFontAddrMoveI : Obligations.AddIndexAndFontAddrMoveI := by
  intro s x
  refine ⟨⟨_, exec_addIndex s x, BitVec.toNat_ofNat _ 16, ?_, s.sameRegsBut_addIndex _ _, rfl,
    s.sameBut_setIThenWrite _ _ _⟩, ?_⟩
  · rw [State.reg_writeResult, if_pos rfl]
    exact flagByte_decide _
  · have hi : (BitVec.ofNat 16 ((s.reg x).toNat * 5)).toNat = 5 * (s.reg x).toNat := by
      have h := (s.reg x).isLt
      rw [BitVec.toNat_ofNat, Nat.mod_eq_of_lt (by omega), Nat.mul_comm]
    refine ⟨_, exec_fontAddr s x, hi, fun h => ?_, rfl, s.sameBut_setIThenAdvance _⟩
    rw [State.advance_i, hi]
    omega

/-! ### Stores -/

theorem State.byteAfterStore_inside {s : State} {bytes : List Byte} {j : Nat}
    (h : j < bytes.length) : s.byteAfterStore bytes (s.i.toNat + j) = bytes[j] := by
  rw [State.byteAfterStore, if_pos (by omega), Nat.add_sub_cancel_left, List.getElem?_eq_getElem h,
    Option.getD_some]

theorem State.byteAfterStore_outside {s : State} {bytes : List Byte} {b : Nat}
    (h : b < s.i.toNat ∨ s.i.toNat + bytes.length ≤ b) :
    s.byteAfterStore bytes b = s.mem.peek b := by
  rw [State.byteAfterStore, if_neg (by omega)]

/-- The three digits as numbers: none needs more than a byte. -/
theorem map_toNat_bcdDigits (a : Byte) :
    (bcdDigits a).map BitVec.toNat = [a.toNat / 100, a.toNat / 10 % 10, a.toNat % 10] := by
  have h := a.isLt
  have h1 : a.toNat / 100 % 2 ^ 8 = a.toNat / 100 := Nat.mod_eq_of_lt (by omega)
  have h2 : a.toNat / 10 % 10 % 2 ^ 8 = a.toNat / 10 % 10 := Nat.mod_eq_of_lt (by omega)
  have h3 : a.toNat % 10 % 2 ^ 8 = a.toNat % 10 := Nat.mod_eq_of_lt (by omega)
  simp only [bcdDigits, List.map_cons, List.map_nil, BitVec.toNat_ofNat, h1, h2, h3]

/-- Settles O45: memory reads as the three digits stored from `I` up. -/
theorem storeBcdStoresThreeDigits : Obligations.StoreBcdStoresThreeDigits := by
  refine ⟨rowDecodes_at 31 rfl, fun s x h => ?_⟩
  obtain ⟨t, hexec, hpc, hsame, -, hpeek⟩ := execStoreBCD_ok s x h
  have hdigits := map_toNat_bcdDigits (s.reg x)
  have hdigit (j d : Nat) (hj : j < (bcdDigits (s.reg x)).length)
      (hd : ((bcdDigits (s.reg x)).map BitVec.toNat)[j]? = some d) :
      (t.mem.peek (s.i.toNat + j)).toNat = d := by
    rw [hpeek, State.byteAfterStore_inside hj]
    rw [List.getElem?_map, List.getElem?_eq_getElem hj] at hd
    exact Option.some.inj hd
  refine ⟨t, hexec, hdigit 0 _ (by simp [bcdDigits]) ?_, hdigit 1 _ (by simp [bcdDigits]) ?_,
    hdigit 2 _ (by simp [bcdDigits]) ?_,
    fun b hb => (hpeek b).trans (State.byteAfterStore_outside hb), hpc, hsame⟩ <;>
    rw [hdigits] <;> rfl

/-- An instruction that takes the fault of a transfer that leaves memory latches its address (R64).
-/
theorem completes_of_outOfBounds {i : Instr} {s : State}
    (hexec : exec i s = .next (s.raise (latchOutOfBounds (max s.i.toNat 4096)))) :
    Completes i s fun t =>
      t.fault = { code := .outOfBounds, info := if 4096 ≤ s.i.toNat then s.i else 4096 } ∧
        t.faultCode = 1 :=
  ⟨_, hexec, by rw [State.raise_fault, latchOutOfBounds_max], rfl⟩

theorem Completes.mono {i : Instr} {s : State} {P Q : State → Prop} (h : Completes i s P)
    (hPQ : ∀ t, P t → Q t) : Completes i s Q := by
  obtain ⟨t, ht, hP⟩ := h
  exact ⟨t, ht, hPQ t hP⟩

/-- Settles O46: the stored block inside memory, and the fault of the store outside. -/
theorem storeRegsStoresTheBlock : Obligations.StoreRegsStoresTheBlock := by
  refine ⟨rowDecodes_at 32 rfl, fun s x => ⟨fun h => ?_, fun h => ?_⟩⟩
  · obtain ⟨t, hexec, hpc, hsame, -, hin, hout⟩ := execStoreRegs_ok s x h
    exact ⟨t, hexec, hin, hout, hpc, hsame⟩
  · exact (completes_of_outOfBounds (i := .storeRegs x) (execStoreRegs_fault s x h)).mono
      fun _ ht => ht.1

/-! ### Loads -/

/-- A register of the block is loaded from its byte. -/
theorem State.reg_setRegBlock_inside (s : State) {x r : Reg} (h : r ≤ x) :
    (s.setRegBlock (s.blockAt (x.val + 1))).advance.reg r = s.mem.peek (s.i.toNat + r.val) := by
  rw [State.reg_advance, State.reg_setRegBlock, State.blockAt_getElem? _ _ _ (Nat.lt_succ_of_le h),
    Option.getD_some]

theorem State.sameBut_setRegBlockThenAdvance (s : State) (bs : List Byte) :
    s.sameBut [.v, .pc] (s.setRegBlock bs).advance := by
  intro f hf
  cases f <;> simp_all [Field.same]

/-- `LoadRegs` that stays in memory. -/
theorem completes_loadRegs {s : State} {x : Reg} (h : s.i.toNat + x.val < 4096) :
    Completes (.loadRegs x) s fun t =>
      (∀ r : Reg, r ≤ x → t.reg r = s.mem.peek (s.i.toNat + r.val)) ∧
        (∀ r : Reg, x < r → t.reg r = s.reg r) ∧ t.pc = s.pc + 2 ∧ s.sameBut [.v, .pc] t :=
  ⟨_, (execLoadRegs_eq s x).trans (if_pos h), fun _ => s.reg_setRegBlock_inside,
    fun _ => s.reg_setRegBlock_above, rfl, s.sameBut_setRegBlockThenAdvance _⟩

/-- `LoadRegs` that leaves memory. -/
theorem exec_loadRegs_fault {s : State} {x : Reg} (h : 4096 ≤ s.i.toNat + x.val) :
    exec (.loadRegs x) s = .next (s.raise (latchOutOfBounds (max s.i.toNat 4096))) :=
  (execLoadRegs_eq s x).trans (if_neg (Nat.not_lt.2 h))

/-- Settles O47: the loaded block inside memory, and the fault of the read outside. -/
theorem loadRegsLoadsTheBlock : Obligations.LoadRegsLoadsTheBlock :=
  ⟨rowDecodes_at 33 rfl, fun _ _ => ⟨completes_loadRegs, fun h =>
    (completes_of_outOfBounds (exec_loadRegs_fault h)).mono fun _ ht => ht.1⟩⟩

/-- Settles O48: the bytes that `StoreRegs` left are those that `LoadRegs` reads. -/
theorem storedRegistersLoadBack : Obligations.StoredRegistersLoadBack := by
  intro s t u x h hstore hi hmem
  obtain ⟨t', hexec, -, -, -, hin, -⟩ := execStoreRegs_ok s x h
  cases hexec.symm.trans hstore
  refine (completes_loadRegs (s := u) (by rwa [hi])).mono ?_
  rintro v ⟨hlow, hhigh, -, hsame⟩
  refine ⟨fun r hr => ?_, hhigh, hsame .fault (by simp)⟩
  rw [hlow r hr, hmem, hi, hin r hr]

/-! ### Stores and later fetches, and the range of a transfer -/

/-- A list that holds `V0` to `Vx` in order is the block of registers. -/
theorem State.eq_regBlock {s : State} {x : Reg} {bytes : List Byte}
    (hlen : bytes.length = x.val + 1) (h : ∀ r : Reg, r ≤ x → bytes[r.val]? = some (s.reg r)) :
    bytes = s.regBlock x := by
  refine List.ext_getElem? fun j => ?_
  rcases Nat.lt_or_ge j (x.val + 1) with hj | hj
  · have hr : (⟨j, by omega⟩ : Reg) ≤ x := Nat.le_of_lt_succ hj
    exact (h _ hr).trans (s.regBlock_getElem? x _ hr).symm
  · rw [List.getElem?_eq_none (by omega), List.getElem?_eq_none (by simpa using hj)]

/-- A list of the three digits is `bcdDigits`. -/
theorem eq_bcdDigits {a : Byte} {bytes : List Byte}
    (h : bytes.map BitVec.toNat = [a.toNat / 100, a.toNat / 10 % 10, a.toNat % 10]) :
    bytes = bcdDigits a :=
  List.map_injective_iff.2 (fun _ _ => BitVec.eq_of_toNat_eq) (h.trans (map_toNat_bcdDigits a).symm)

/-- Memory after an instruction that stores a block, where it stays in memory. -/
theorem peek_of_store {i : Instr} {s t : State} {bytes : List Byte}
    (hexec : exec i s = s.settle ((s.storeBlock bytes).map State.advance)) (h : exec i s = .next t)
    (hin : s.i.toNat + bytes.length ≤ 4096) (b : Nat) :
    t.mem.peek b = s.byteAfterStore bytes b := by
  obtain ⟨u, hu, -, -, -, hpeek⟩ := s.storeThenAdvance_ok bytes (.inr hin)
  cases (hexec.trans hu).symm.trans h
  exact hpeek b

/-- Settles O49: both instructions store their block, and a fetch reads memory as the store left it.
-/
theorem storesAreSeenByTheNextFetch : Obligations.StoresAreSeenByTheNextFetch := by
  intro s t u i bytes hi hin h hmem hpc
  have hpeek (b : Nat) : u.mem.peek b = s.byteAfterStore bytes b := by
    rw [hmem]
    rcases hi with ⟨x, rfl, hlen, hregs⟩ | ⟨x, rfl, hdigits⟩
    · obtain rfl := State.eq_regBlock hlen hregs
      exact peek_of_store rfl h hin b
    · obtain rfl := eq_bcdDigits hdigits
      exact peek_of_store rfl h hin b
  refine ⟨_, State.fetchWord_ok hpc, ?_⟩
  rw [wordOfBytes_toNat, hpeek, hpeek]

/-- Settles O50: each transfer's own rule inside memory and outside. -/
theorem dataAccessOutOfRangeLatchesTheAddress :
    Obligations.DataAccessOutOfRangeLatchesTheAddress := by
  intro s i len hi
  rcases hi with ⟨x, y, n, rfl, rfl⟩ | ⟨x, rfl, rfl⟩ | ⟨x, rfl, rfl⟩ | ⟨x, rfl, rfl⟩
  · have hexec := execDrawSprite_eq s x y n
    exact ⟨fun h => completes_of_outOfBounds (hexec.trans (if_neg (by omega))),
      fun h => ⟨_, hexec.trans (if_pos (by omega)), rfl⟩⟩
  · refine ⟨fun h => completes_of_outOfBounds (execStoreBCD_fault s x (by omega)), fun h => ?_⟩
    obtain ⟨t, hexec, -, hsame, -⟩ := execStoreBCD_ok s x (by omega)
    exact ⟨t, hexec, hsame .fault (by simp)⟩
  · refine ⟨fun h => completes_of_outOfBounds (execStoreRegs_fault s x (by omega)), fun h => ?_⟩
    obtain ⟨t, hexec, -, hsame, -⟩ := execStoreRegs_ok s x (by omega)
    exact ⟨t, hexec, hsame .fault (by simp)⟩
  · refine ⟨fun h => completes_of_outOfBounds (exec_loadRegs_fault (by omega)), fun h =>
      (completes_loadRegs (by omega)).mono ?_⟩
    rintro t ⟨-, -, -, hsame⟩
    exact hsame .fault (by simp)

end Sys2Proof.Machine
end

section
/-!
Video (spec/44_video.md): what a sprite does to every pixel, drawn once, twice, and off the screen.
-/

namespace Sys2Proof.Machine

theorem State.sameBut_clearScreen (s : State) :
    s.sameBut [.fb, .pc] { s with fb := blankScreen }.advance := by
  intro f hf
  cases f <;> simp_all [Field.same]

/-- Settles O51: the word selects its row, and the new framebuffer is blank. -/
theorem clearScreenBlanksEveryPixel : Obligations.ClearScreenBlanksEveryPixel :=
  ⟨rowDecodes_at 0 rfl, fun s =>
    ⟨_, rfl, fun r c _ _ => Screen.pixel_blank r c, rfl, s.sameBut_clearScreen⟩⟩

theorem State.sameBut_drawBytes (s : State) (x y : Reg) (bs : List Byte) :
    s.sameBut [.v, .fb, .strobe, .pc] (s.drawBytes x y bs) := by
  intro f hf
  cases f <;> simp_all [Field.same]

/-- `DrawSprite` whose bytes are in memory. -/
theorem exec_drawSprite_ok {s : State} {n : Nibble} (x y : Reg)
    (h : n.toNat = 0 ∨ s.i.toNat + n.toNat ≤ 4096) :
    exec (.drawSprite x y n) s = .next (s.drawBytes x y (s.blockAt n.toNat)) :=
  (execDrawSprite_eq s x y n).trans (if_pos h)

theorem collisionFlag_eq_one {b : Bool} : collisionFlag b = 1 ↔ b = true := by
  cases b <;> decide

theorem collisionFlag_eq_zero {b : Bool} : collisionFlag b = 0 ↔ b = false := by
  cases b <;> decide

/-- `VF` after a draw (R215). -/
theorem State.drawBytes_flag (s : State) (x y : Reg) (bs : List Byte) :
    (s.drawBytes x y bs).reg VF =
      collisionFlag (blit s.fb (s.reg x).toNat (s.reg y).toNat bs).2 := by
  rw [State.reg_drawBytes, if_pos rfl]

/-- A collision is in the grid (R214, R215). -/
theorem collided_blit_inside (fb : Screen) (px py : Nat) (bytes : List Byte) :
    (blit fb px py bytes).2 = true ↔
      ∃ r c, r < 32 ∧ c < 64 ∧ fb.pixel r c = true ∧ spriteAt bytes px py r c = true := by
  rw [collided_blit]
  constructor
  · rintro ⟨r, c, hp, hs⟩
    obtain ⟨hr, hc⟩ := Screen.pixel_true_inside hp
    exact ⟨r, c, hr, hc, hp, hs⟩
  · rintro ⟨r, c, -, -, hp, hs⟩
    exact ⟨r, c, hp, hs⟩

/-- Settles O52: the word selects its row, and the blit's own laws say what each pixel and the flag
become. -/
theorem drawSpriteXorsAndReportsCollision : Obligations.DrawSpriteXorsAndReportsCollision := by
  refine ⟨rowDecodes_at 22 rfl, fun s x y n bytes hin hbytes => ?_⟩
  subst hbytes
  refine ⟨_, exec_drawSprite_ok x y hin, fun r c hr hc => pixel_blit _ _ _ _ r c hr hc, ?_, ?_,
    s.sameRegsBut_drawBytes x y _, rfl, rfl, s.sameBut_drawBytes x y _⟩
  · rw [State.drawBytes_flag, collisionFlag_eq_one]
    exact collided_blit_inside _ _ _ _
  · rw [State.drawBytes_flag, collisionFlag_eq_one, collisionFlag_eq_zero]
    exact Bool.eq_false_or_eq_true _ |>.symm

/-- XORing a sprite in twice restores every pixel. -/
theorem blit_blit (fb : Screen) (px py : Nat) (bytes : List Byte) :
    (blit (blit fb px py bytes).1 px py bytes).1 = fb :=
  Screen.ext_pixel fun r c hr hc => by
    rw [pixel_blit _ _ _ _ r c hr hc, pixel_blit _ _ _ _ r c hr hc, Bool.xor_assoc, Bool.xor_self,
      Bool.xor_false]

/-- Where the first draw erased nothing, what the second erases is what the first lit. -/
theorem collided_blit_blit {fb : Screen} {px py : Nat} {bytes : List Byte}
    (h : (blit fb px py bytes).2 = false) :
    (blit (blit fb px py bytes).1 px py bytes).2 = true ↔ (blit fb px py bytes).1 ≠ fb := by
  have hfirst (r c : Nat) (hp : fb.pixel r c = true) (hs : spriteAt bytes px py r c = true) :
      False := by
    have := (collided_blit fb px py bytes).2 ⟨r, c, hp, hs⟩
    simp [h] at this
  constructor
  · intro hsecond heq
    obtain ⟨r, c, hp, hs⟩ := (collided_blit _ _ _ _).1 hsecond
    exact hfirst r c (heq ▸ hp) hs
  · contrapose!
    intro hsecond
    refine Screen.ext_pixel fun r c hr hc => ?_
    have hpixel := pixel_blit fb px py bytes r c hr hc
    cases hs : spriteAt bytes px py r c with
    | false => rw [hpixel, hs, Bool.xor_false]
    | true =>
      have hlit : (blit fb px py bytes).1.pixel r c = true := by
        rw [hpixel, hs, Bool.eq_false_iff.2 fun hp => hfirst r c hp hs]
        rfl
      exact absurd ((collided_blit _ _ _ _).2 ⟨r, c, hlit, hs⟩) hsecond

/-- Settles O53: the first draw leaves the coordinates and the sprite's bytes, so the second blits
the same sprite at the same place. -/
theorem drawingTwiceRestoresTheScreen : Obligations.DrawingTwiceRestoresTheScreen := by
  intro s t u x y n hx hy hin ht hu
  cases (exec_drawSprite_ok x y hin).symm.trans ht
  have hsame := s.sameRegsBut_drawBytes x y (s.blockAt n.toNat)
  have hxs := hsame x (by simpa using hx)
  have hys := hsame y (by simpa using hy)
  cases (exec_drawSprite_ok (s := s.drawBytes x y (s.blockAt n.toNat)) x y hin).symm.trans hu
  have hbytes : (s.drawBytes x y (s.blockAt n.toNat)).blockAt n.toNat = s.blockAt n.toNat := rfl
  rw [State.drawBytes_flag, State.drawBytes_flag, State.drawBytes_fb, hbytes, hxs, hys,
    State.drawBytes_fb, collisionFlag_eq_one, collisionFlag_eq_zero]
  exact ⟨blit_blit _ _ _ _, collided_blit_blit⟩

/-- A sprite that starts off the screen covers no pixel of it (R214). -/
theorem spriteAt_off_screen (bytes : List Byte) {px py r c : Nat} (h : 64 ≤ px ∨ 32 ≤ py)
    (hr : r < 32) (hc : c < 64) : spriteAt bytes px py r c = false := by
  rw [spriteAt, if_neg (by omega)]

/-- Such a sprite changes nothing and hits nothing. -/
theorem blit_off_screen (fb : Screen) {px py : Nat} (bytes : List Byte) (h : 64 ≤ px ∨ 32 ≤ py) :
    (blit fb px py bytes).1 = fb ∧ (blit fb px py bytes).2 = false := by
  constructor
  · refine Screen.ext_pixel fun r c hr hc => ?_
    rw [pixel_blit _ _ _ _ r c hr hc, spriteAt_off_screen bytes h hr hc, Bool.xor_false]
  · rw [Bool.eq_false_iff, ne_eq, collided_blit_inside]
    rintro ⟨r, c, hr, hc, -, hs⟩
    simp [spriteAt_off_screen bytes h hr hc] at hs

/-- Settles O54: the blit of a sprite that covers no pixel. -/
theorem spritesOffTheScreenDrawNothing : Obligations.SpritesOffTheScreenDrawNothing := by
  intro s x y n hoff hin
  obtain ⟨hfb, hhit⟩ := blit_off_screen s.fb (s.blockAt n.toNat) hoff
  refine ⟨_, exec_drawSprite_ok x y hin, hfb, ?_, rfl, rfl⟩
  rw [State.drawBytes_flag, collisionFlag_eq_zero]
  exact hhit

end Sys2Proof.Machine
end

section
/-!
Keyboard and timers (spec/45_keyboard_timers.md): the key skips, `WaitKey`, `SetDelay` and
`SetSound`.
-/

namespace Sys2Proof.Machine

/-- `SkipKeyDown` skips where the key is pressed. -/
theorem exec_skipKeyDown (s : State) (x : Reg) :
    exec (.skipKeyDown x) s = .next (s.skipIf (s.k.getLsbD ((s.reg x).toNat % 16))) := rfl

/-- `SkipKeyUp` skips where it is not. -/
theorem exec_skipKeyUp (s : State) (x : Reg) :
    exec (.skipKeyUp x) s = .next (s.skipIf (!s.k.getLsbD ((s.reg x).toNat % 16))) := rfl

/-- Settles O55: both words select their row, and both instructions end in a skip on one bit. -/
theorem keySkipsTestOneKey : Obligations.KeySkipsTestOneKey :=
  ⟨rowDecodes_at 23 rfl, rowDecodes_at 24 rfl, fun s x =>
    ⟨completes_of_skipIf (exec_skipKeyDown s x) Iff.rfl,
      completes_of_skipIf (exec_skipKeyUp s x) (by rw [Bool.not_eq_true'])⟩⟩

/-- A pressed key with none below it is the lowest. -/
theorem lowestKey_of_least {k : BitVec 16} {id : Nat} (hid : k.getLsbD id = true)
    (hleast : ∀ j, j < id → k.getLsbD j = false) : lowestKey k = some id := by
  cases hk : lowestKey k with
  | none =>
    rw [lowestKey_eq_none.1 hk] at hid
    simp at hid
  | some j =>
    obtain ⟨-, hj, hbelow⟩ := lowestKey_eq_some hk
    rcases Nat.lt_trichotomy j id with hlt | rfl | hgt
    · simp [hleast j hlt] at hj
    · rfl
    · simp [hbelow id hgt] at hid

/-- `WaitKey` that finds a key ends in a write of its number. -/
theorem exec_waitKey_some {s : State} {id : Nat} (x : Reg) (h : lowestKey s.k = some id) :
    exec (.waitKey x) s = .next (s.writeResult x (BitVec.ofNat 8 id)) := by
  simp only [exec, execWaitKey, State.latchKey, h, State.writeResult]

/-- Settles O56: the word selects its row, and the instruction does nothing, or writes the lowest
key. -/
theorem waitKeyLatchesTheLowestKey : Obligations.WaitKeyLatchesTheLowestKey := by
  refine ⟨rowDecodes_at 26 rfl, fun s x => ⟨fun hk => ?_, fun id hlt hid hleast => ?_⟩⟩
  · refine ⟨s, congrArg _ (s.latchKey_none x hk), fun f _ => ?_⟩
    cases f <;> simp [Field.same]
  · refine completes_of_writeResult (p := fun b => b.toNat = id)
      (exec_waitKey_some x (lowestKey_of_least hid hleast)) ?_
    rw [BitVec.toNat_ofNat, Nat.mod_eq_of_lt (by omega)]

/-- `SetDelay` writes `Vx` to `DT`. -/
theorem exec_setDelay (s : State) (x : Reg) :
    exec (.setDelay x) s = .next { s with dt := s.reg x }.advance := rfl

/-- What `SetSound` leaves in `ST`: the old value where the guard is on and `Vx` at most 2 (R235).
-/
def soundLeft (s : State) (x : Reg) : Byte :=
  if s.params.setSoundGuard = true ∧ (s.reg x).toNat ≤ 2 then s.st else s.reg x

theorem toNat_soundLeft (s : State) (x : Reg) :
    (soundLeft s x).toNat =
      if s.params.setSoundGuard = true ∧ (s.reg x).toNat ≤ 2 then s.st.toNat else (s.reg x).toNat :=
  apply_ite BitVec.toNat _ _ _

/-- `SetSound` writes what the guard leaves to `ST`. -/
theorem exec_setSound (s : State) (x : Reg) :
    exec (.setSound x) s = .next { s with st := soundLeft s x }.advance := by
  have hwrites : (!s.params.setSoundGuard || decide ((s.reg x).toNat > 2)) = true ↔
      ¬ (s.params.setSoundGuard = true ∧ (s.reg x).toNat ≤ 2) := by
    cases s.params.setSoundGuard <;> simp
  simp only [exec, execSetSound, soundLeft, hwrites, ite_not]

/-- Settles O58: both words select their row, each instruction writes its timer, and the end of the
step ticks what it left. -/
theorem timerWritesTickInTheSameStep : Obligations.TimerWritesTickInTheSameStep := by
  refine ⟨rowDecodes_at 27 rfl, rowDecodes_at 28 rfl, fun s x =>
    ⟨⟨_, exec_setDelay s x, rfl, rfl, fun f hf => ?_⟩,
      ⟨_, exec_setSound s x, rfl, rfl, fun f hf => ?_⟩,
      stepCompletes_of_exec (exec_setDelay s.beginStep x) fun hrun => ?_,
      stepCompletes_of_exec (exec_setSound s.beginStep x) fun hrun => ?_⟩⟩
  · cases f <;> simp_all [Field.same]
  · cases f <;> simp_all [Field.same]
  · exact State.endStep_dt_toNat hrun
  · have htick := State.endStep_st_toNat (s := { s.beginStep with st := soundLeft s x }.advance)
      (i := .setSound x) hrun
    exact htick.trans (congrArg (· - 1) (toNat_soundLeft s x))

end Sys2Proof.Machine
end
